-- ==== Sys2Proof/Word.lean ====
section
/-! DEFINITION. The value types of the machine (spec/00_scope.md R12, R13): the 32-bit instruction word, the
14-bit address field, the 64-bit pattern of a binary64 value, and the byte of a program image. -/

namespace Sys2Proof

/-- An instruction word, `w[31:0]` (30_encoding.md R70). -/
abbrev Word := BitVec 32

/-- An address field: operand_a, operand_b or source, 14 bits (00_scope.md R5). -/
abbrev Addr := BitVec 14

/-- A 64-bit pattern read as IEEE 754 binary64 (00_scope.md R13). -/
abbrev F64 := BitVec 64

/-- One byte of a program image (20_memory.md R51). -/
abbrev Byte := BitVec 8

namespace F64

/-- `+0.0` (00_scope.md R13). -/
abbrev posZero : F64 := 0x0000000000000000#64
/-- `-0.0` (00_scope.md R13). -/
abbrev negZero : F64 := 0x8000000000000000#64

end F64

end Sys2Proof
end

