-- ==== Sys2Proof/Config.lean ====
section
/-! DEFINITION. What is fixed for a machine (the parameters of spec/00_scope.md section 4 and the opcode tables of
spec/30_encoding.md R77) and the free values the spec leaves open (the draws of 40_dform_arithmetic.md R102 and
00_scope.md R9). -/

namespace Sys2Proof

/-- IMAGE_ENDIAN: byte order of words and doubles in the program image (00_scope.md R8). -/
inductive Endian where
  | little
  | big
deriving DecidableEq, Repr

/-- STATUS_RESET: the status flag after create (00_scope.md R9): false, or an arbitrary Boolean drawn at create. -/
inductive StatusReset where
  | cleared
  | draw
deriving DecidableEq, Repr

/-- INVALID_POLICY: what a program that holds an undefined encoding means (00_scope.md R11). -/
inductive InvalidPolicy where
  | refuse
  | noop
deriving DecidableEq, Repr

/-- RUN_WHEN_CREATED: run_cycle before any load, a no-op or an explicit error (43_sequencer_and_host.md R166). -/
inductive RunWhenCreated where
  | noop
  | error
deriving DecidableEq, Repr

/-- RELOAD_POLICY: a second load on one VM: refused, or destroy, create and load as one operation
(43_sequencer_and_host.md R164). -/
inductive ReloadPolicy where
  | refuse
  | fresh
deriving DecidableEq, Repr

/-- The codes of the primary opcodes. SUB_DISPATCH is no field: its code is 0, the one value the source fixes
(30_encoding.md R77). -/
structure PrimaryCodes where
  add    : BitVec 4
  sub    : BitVec 4
  mult   : BitVec 4
  div    : BitVec 4
  output : BitVec 4
  select : BitVec 4
deriving DecidableEq, Repr

/-- The codes of the secondary opcodes (30_encoding.md R77). -/
structure SecondaryCodes where
  noop        : BitVec 4
  compareZero : BitVec 4
  sqrt        : BitVec 4
  copy        : BitVec 4
  readInput   : BitVec 4
deriving DecidableEq, Repr

/-- The codes of the compare modes (30_encoding.md R77, R79). -/
structure ModeCodes where
  lt : BitVec 3
  le : BitVec 3
  eq : BitVec 3
  ge : BitVec 3
  gt : BitVec 3
deriving DecidableEq, Repr

/-- The three opcode tables, fields of the configuration (30_encoding.md R77; 93_implementation_defined.md U1). -/
structure OpcodeTables where
  primary   : PrimaryCodes
  secondary : SecondaryCodes
  mode      : ModeCodes
deriving DecidableEq, Repr

/-- The parameters of one machine: the opcode tables (30_encoding.md R77) and those of 00_scope.md section 4.
MEM_CAPACITY is held as its excess over `2^14`, so that the lower bound of R6 holds of every configuration. -/
structure Config where
  opcodes        : OpcodeTables
  extraSlots     : Nat
  imageEndian    : Endian
  statusReset    : StatusReset
  invalidPolicy  : InvalidPolicy
  runWhenCreated : RunWhenCreated
  reloadPolicy   : ReloadPolicy
deriving DecidableEq, Repr

namespace Config

/-- MEM_CAPACITY, any value at least 16384 (00_scope.md R6). -/
def memCapacity (c : Config) : Nat := 16384 + c.extraSlots

/-- PORT_COUNT = 2^14 entries in each port array (00_scope.md R7). -/
def portCount : Nat := 16384

/-- FREE VALUE: the sign bit of the `n`-th NaN drawn (40_dform_arithmetic.md R102; log 6). -/
opaque nanSign : Nat → BitVec 1

/-- FREE VALUE: the fraction of the `n`-th NaN drawn, less 1, so that the fraction is never zero: any of the
`2^52 - 1` non-zero fractions (40_dform_arithmetic.md R102; log 6). -/
opaque nanFractionPred : Nat → Fin 4503599627370495

/-- FREE VALUE: the status flag of the instance whose create is the `n`-th draw, under STATUS_RESET = draw
(00_scope.md R9; log 4). -/
opaque statusAtCreate : Nat → Bool

end Config

end Sys2Proof
end

