-- ==== Sys2Proof/Machine/Float.lean ====
section
/-! DEFINITION. The binary64 primitives (spec/40_dform_arithmetic.md R100 to R105): IEEE 754 binary64 with
roundTiesToEven, by exact natural and integer arithmetic and one explicit rounding (logs 5, 26). Magnitudes are
counted in units of the least subnormal, `2^-1074`. -/

namespace Sys2Proof

namespace F64

/-! ## Fields and classes (00_scope.md R13) -/

/-- The sign bit, bit 63: true for a negative sign. -/
def sign (v : F64) : Bool := v.getLsbD 63

/-- The biased exponent, bits 62:52. -/
def exponent (v : F64) : Nat := (v.extractLsb' 52 11).toNat

/-- The fraction, bits 51:0. -/
def fraction (v : F64) : Nat := (v.extractLsb' 0 52).toNat

/-- A NaN: exponent bits all ones and a non-zero fraction (40_dform_arithmetic.md R102). -/
def isNaN (v : F64) : Bool := v.exponent == 2047 && v.fraction != 0

/-- An infinity: exponent bits all ones and a zero fraction. -/
def isInf (v : F64) : Bool := v.exponent == 2047 && v.fraction == 0

/-- One of the two zeros (42_sform.md R133). -/
def isZero (v : F64) : Bool := v.exponent == 0 && v.fraction == 0

/-- Neither a NaN nor an infinity. -/
def isFinite (v : F64) : Bool := v.exponent != 2047

/-- The significand of a finite value as an integer: the hidden bit is 1 except for zeros and subnormals. -/
def significand (v : F64) : Nat :=
  if v.exponent = 0 then v.fraction else 4503599627370496 + v.fraction

/-- By how many places the significand stands above the unit `2^-1074`. -/
def scale (v : F64) : Nat := v.exponent - 1

/-- The magnitude of a finite value in units of `2^-1074`, exact. -/
def units (v : F64) : Nat := v.significand <<< v.scale

/-- A finite value in units of `2^-1074`, with its sign, exact. -/
def signedUnits (v : F64) : Int := if v.sign then -(v.units : Int) else (v.units : Int)

/-- The pattern with its sign bit inverted (40_dform_arithmetic.md R103). -/
def negate (v : F64) : F64 := v ^^^ negZero

/-- The low 63 bits of the infinities: a finite magnitude has smaller low bits. -/
def infBits : Nat := 0x7FF0000000000000

/-- The pattern of a sign and of the low 63 bits `bits < 2^63`. -/
def pack (negative : Bool) (bits : Nat) : F64 :=
  BitVec.ofNat 64 ((if negative then 9223372036854775808 else 0) + bits)

/-- The infinity of a sign. -/
def inf (negative : Bool) : F64 := pack negative infBits

/-- The zero of a sign. -/
def zero (negative : Bool) : F64 := pack negative 0

/-- The NaN of a sign bit and a fraction that is one more than `f`: each of the `2^53 - 2` NaN patterns is one
(40_dform_arithmetic.md R102). -/
def nanPattern (sign : BitVec 1) (f : Fin 4503599627370495) : F64 :=
  sign ++ (0x7FF#11 : BitVec 11) ++ BitVec.ofNat 52 (f.val + 1)

/-! ## Rounding (40_dform_arithmetic.md R101) -/

/-- `num / den` rounded to the nearest natural, ties to the even one. -/
def divNearestEven (num den : Nat) : Nat :=
  let q := num / den
  let r := num % den
  if 2 * r < den then q
  else if den < 2 * r then q + 1
  else if q % 2 = 0 then q else q + 1

/-- The low 63 bits of the binary64 magnitude nearest to `num / den` units, ties to even: the quotient is rounded
at the place where 53 significant bits end, or at the unit for a subnormal, and a magnitude that is too large is
an infinity. -/
def roundBits (num den : Nat) : Nat :=
  let k := (num / den).log2 - 52
  let n := divNearestEven num (den <<< k)
  min (k <<< 52 + n) infBits

/-! ## The five functions (40_dform_arithmetic.md R100) -/

end F64

/-- What an arithmetic function delivers: a pattern, or a NaN whose pattern is the NAN_RESULT draw
(40_dform_arithmetic.md R102). -/
inductive FpResult where
  | value (v : F64)
  | nan
deriving DecidableEq, Repr

namespace F64

/-- `fadd` (40_dform_arithmetic.md R101 to R104). An exact sum of zero is `+0.0`, except of two negative zeros. -/
def fadd (a b : F64) : FpResult :=
  if a.isNaN || b.isNaN then .nan
  else if a.isInf then (if b.isInf && a.sign != b.sign then .nan else .value a)
  else if b.isInf then .value b
  else
    let x := a.signedUnits + b.signedUnits
    if x = 0 then .value (zero (a.sign && b.sign))
    else .value (pack (decide (x < 0)) (roundBits x.natAbs 1))

/-- `fsub(a, b) = fadd(a, negate(b))` (40_dform_arithmetic.md R103). -/
def fsub (a b : F64) : FpResult := fadd a b.negate

/-- `fmul` (40_dform_arithmetic.md R101 to R104). -/
def fmul (a b : F64) : FpResult :=
  if a.isNaN || b.isNaN then .nan
  else if a.isInf || b.isInf then
    (if a.isZero || b.isZero then .nan else .value (inf (a.sign != b.sign)))
  else .value (pack (a.sign != b.sign) (roundBits (a.units * b.units) (1 <<< 1074)))

/-- `fdiv` (40_dform_arithmetic.md R101 to R104). DIV never evaluates it with a zero divisor (R114); the function
is total all the same. -/
def fdiv (a b : F64) : FpResult :=
  if a.isNaN || b.isNaN then .nan
  else if a.isInf then (if b.isInf then .nan else .value (inf (a.sign != b.sign)))
  else if b.isInf then .value (zero (a.sign != b.sign))
  else if b.isZero then (if a.isZero then .nan else .value (inf (a.sign != b.sign)))
  else .value (pack (a.sign != b.sign) (roundBits (a.units <<< 1074) b.units))

/-- The greatest `r` with `r * r ≤ y`, bit by bit from bit `fuel - 1` down; `acc` holds the bits found so far. -/
def sqrtBits : Nat → Nat → Nat → Nat
  | 0, acc, _ => acc
  | b + 1, acc, y =>
    let c := acc + 1 <<< b
    if c * c ≤ y then sqrtBits b c y else sqrtBits b acc y

/-- `fsqrt` (40_dform_arithmetic.md R102, R103, R105). With `m` the significand and `m * 2^(2h + r)` the value times
`2^1074` in units, the root is `sqrt (m * 2^(r + 108))` with 54 places more than `h` gives; where that is no
integer, a half below its last place stands for the rest, which rounds the same way. -/
def fsqrt (v : F64) : FpResult :=
  if v.isNaN then .nan
  else if v.isZero then .value v
  else if v.sign then .nan
  else if v.isInf then .value v
  else
    let h := (v.scale + 1074) / 2
    let y := v.significand <<< ((v.scale + 1074) % 2 + 108)
    let q := sqrtBits 82 0 y
    let sticky := if q * q = y then 0 else 1
    .value (pack false (roundBits ((2 * q + sticky) <<< (h - 54)) 2))

/-! ## Comparison with zero (42_sform.md R133) -/

/-- `flt0`: less than zero. -/
def flt0 (v : F64) : Bool := !v.isNaN && !v.isZero && v.sign
/-- `fle0`: less than or equal to zero. -/
def fle0 (v : F64) : Bool := !v.isNaN && (v.isZero || v.sign)
/-- `feq0`: equal to zero; both zeros are. -/
def feq0 (v : F64) : Bool := v.isZero
/-- `fge0`: greater than or equal to zero. -/
def fge0 (v : F64) : Bool := !v.isNaN && (v.isZero || !v.sign)
/-- `fgt0`: greater than zero. -/
def fgt0 (v : F64) : Bool := !v.isNaN && !v.isZero && !v.sign

end F64

/-- The five arithmetic functions as one record (00_scope.md R10; 40_dform_arithmetic.md R100). -/
structure Numerics where
  fadd  : F64 → F64 → FpResult
  fsub  : F64 → F64 → FpResult
  fmul  : F64 → F64 → FpResult
  fdiv  : F64 → F64 → FpResult
  fsqrt : F64 → FpResult

/-- The instance this hardware takes: IEEE 754 binary64 with roundTiesToEven (40_dform_arithmetic.md R100). -/
def Machine.numerics : Numerics where
  fadd  := F64.fadd
  fsub  := F64.fsub
  fmul  := F64.fmul
  fdiv  := F64.fdiv
  fsqrt := F64.fsqrt

end Sys2Proof
end

