-- ==== Sys2Proof/Syntax.lean ====
section
/-! DEFINITION. The instructions as syntax: one constructor for each row of spec/opcode_table.json, the seven
INVALID rows included (spec/30_encoding.md R78, R81 to R83). Each constructor carries every field of its word
that the row does not fix, the ignored ones too (R85). -/

namespace Sys2Proof

/-- One decoded instruction word. `a` is operand_a, `b` operand_b, `src` source, `mode` compare_mode. -/
inductive Instr where
  /-- ADD, primary 1 (40_dform_arithmetic.md R110). -/
  | add (a b : Addr)
  /-- SUB, primary 2 (40_dform_arithmetic.md R111). -/
  | sub (a b : Addr)
  /-- MULT, primary 3 (40_dform_arithmetic.md R112). -/
  | mult (a b : Addr)
  /-- DIV, primary 4 (40_dform_arithmetic.md R113). -/
  | div (a b : Addr)
  /-- OUTPUT, primary 5: `port` is operand_a (41_dform_output_select.md R120). -/
  | output (port b : Addr)
  /-- SELECT, primary 6 (41_dform_output_select.md R123). -/
  | select (a b : Addr)
  /-- NOOP, secondary 0 (42_sform.md R130). -/
  | noop (mode : BitVec 3) (bit20 : BitVec 1) (immediate : BitVec 6) (src : Addr)
  /-- COMPARE_ZERO, mode 0 (42_sform.md R134). -/
  | compareZeroLt (bit20 : BitVec 1) (immediate : BitVec 6) (src : Addr)
  /-- COMPARE_ZERO, mode 1 (42_sform.md R135). -/
  | compareZeroLe (bit20 : BitVec 1) (immediate : BitVec 6) (src : Addr)
  /-- COMPARE_ZERO, mode 2 (42_sform.md R136). -/
  | compareZeroEq (bit20 : BitVec 1) (immediate : BitVec 6) (src : Addr)
  /-- COMPARE_ZERO, mode 3 (42_sform.md R137). -/
  | compareZeroGe (bit20 : BitVec 1) (immediate : BitVec 6) (src : Addr)
  /-- COMPARE_ZERO, mode 4 (42_sform.md R138). -/
  | compareZeroGt (bit20 : BitVec 1) (immediate : BitVec 6) (src : Addr)
  /-- SQRT, secondary 2 (42_sform.md R139). -/
  | sqrt (mode : BitVec 3) (bit20 : BitVec 1) (immediate : BitVec 6) (src : Addr)
  /-- COPY, secondary 3 (42_sform.md R141). -/
  | copy (mode : BitVec 3) (bit20 : BitVec 1) (immediate : BitVec 6) (src : Addr)
  /-- READ_INPUT, secondary 4: `port` is source (42_sform.md R140). -/
  | readInput (mode : BitVec 3) (bit20 : BitVec 1) (immediate : BitVec 6) (port : Addr)
  /-- INVALID, primary 7 (30_encoding.md R81). -/
  | invalidPrimary7 (a b : Addr)
  /-- INVALID, primary 8 to 15, or any other undefined one under other tables (30_encoding.md R77, R81). -/
  | invalidPrimary8to15 (primary : BitVec 4) (a b : Addr)
  /-- INVALID, secondary 5 (30_encoding.md R82). -/
  | invalidSecondary5 (mode : BitVec 3) (bit20 : BitVec 1) (immediate : BitVec 6) (src : Addr)
  /-- INVALID, secondary 6 or 7 (30_encoding.md R82). -/
  | invalidSecondary6to7 (secondary : BitVec 4) (mode : BitVec 3) (bit20 : BitVec 1) (immediate : BitVec 6) (src : Addr)
  /-- INVALID, secondary 8 to 15, or any other undefined one under other tables (30_encoding.md R77, R82). -/
  | invalidSecondary8to15 (secondary : BitVec 4) (mode : BitVec 3) (bit20 : BitVec 1) (immediate : BitVec 6) (src : Addr)
  /-- INVALID, COMPARE_ZERO with mode 5 (30_encoding.md R83). -/
  | invalidCompareMode5 (bit20 : BitVec 1) (immediate : BitVec 6) (src : Addr)
  /-- INVALID, COMPARE_ZERO with mode 6 or 7, or any other undefined one under other tables (30_encoding.md R77,
  R83). -/
  | invalidCompareMode6to7 (mode : BitVec 3) (bit20 : BitVec 1) (immediate : BitVec 6) (src : Addr)
deriving DecidableEq, Repr

end Sys2Proof
end

