-- ==== Sys2Proof/WellFormed.lean ====
section
/-! DEFINITION. Which opcode tables are legal, and which instruction terms are words of their row under a table: the
checks that the field types alone do not make (spec/30_encoding.md R77, R81, R82, R83). -/

namespace Sys2Proof

/-- The defined primary codes other than SUB_DISPATCH. -/
abbrev PrimaryCodes.codes (t : PrimaryCodes) : List (BitVec 4) := [t.add, t.sub, t.mult, t.div, t.output, t.select]

/-- The defined secondary codes. -/
abbrev SecondaryCodes.codes (t : SecondaryCodes) : List (BitVec 4) :=
  [t.noop, t.compareZero, t.sqrt, t.copy, t.readInput]

/-- The defined compare modes. -/
abbrev ModeCodes.codes (t : ModeCodes) : List (BitVec 3) := [t.lt, t.le, t.eq, t.ge, t.gt]

/-- Each table gives each name a code of its own, and no primary operation takes the code 0 of SUB_DISPATCH
(30_encoding.md R77). DEDUCED (log 1). -/
abbrev OpcodeTables.Legal (t : OpcodeTables) : Prop :=
  (0 :: t.primary.codes).Nodup ∧ t.secondary.codes.Nodup ∧ t.mode.codes.Nodup

/-- The term is a word of the opcode-table row its constructor names: an INVALID row's code is one the table does not
define, and one the row names. -/
def Instr.wellFormed (t : OpcodeTables) : Instr → Bool
  | .add _ _ | .sub _ _ | .mult _ _ | .div _ _ | .output _ _ | .select _ _ => true
  | .noop _ _ _ _ => true
  | .compareZeroLt _ _ _ | .compareZeroLe _ _ _ | .compareZeroEq _ _ _ => true
  | .compareZeroGe _ _ _ | .compareZeroGt _ _ _ => true
  | .sqrt _ _ _ _ | .copy _ _ _ _ | .readInput _ _ _ _ => true
  | .invalidPrimary7 _ _ => decide (7 ∉ t.primary.codes)
  | .invalidPrimary8to15 primary _ _ => decide (primary ≠ 0 ∧ primary ≠ 7 ∧ primary ∉ t.primary.codes)
  | .invalidSecondary5 _ _ _ _ => decide (5 ∉ t.secondary.codes)
  | .invalidSecondary6to7 secondary _ _ _ _ =>
    decide ((secondary = 6 ∨ secondary = 7) ∧ secondary ∉ t.secondary.codes)
  | .invalidSecondary8to15 secondary _ _ _ _ =>
    decide (secondary ≠ 5 ∧ secondary ≠ 6 ∧ secondary ≠ 7 ∧ secondary ∉ t.secondary.codes)
  | .invalidCompareMode5 _ _ _ => decide (5 ∉ t.mode.codes)
  | .invalidCompareMode6to7 mode _ _ _ => decide (mode ≠ 5 ∧ mode ∉ t.mode.codes)

end Sys2Proof
end

