-- ==== Sys2Proof/Decode.lean ====
section
/-! DEFINITION. The instruction codec (spec/30_encoding.md): field extraction, the total decoder on words, the
decoder on bytes, the encoder, and the byte order of program images (spec/20_memory.md R54). -/

namespace Sys2Proof

/-! ## Opcode numbers (30_encoding.md R77; log 1) -/

namespace Opcode

/-- SUB_DISPATCH: the S-form (30_encoding.md R73). -/
def subDispatch : BitVec 4 := 0
/-- Primary opcodes, in the order of R77. UNVERIFIED (log 1). -/
def add : BitVec 4 := 1
def sub : BitVec 4 := 2
def mult : BitVec 4 := 3
def div : BitVec 4 := 4
def output : BitVec 4 := 5
def select : BitVec 4 := 6

/-- Secondary opcodes, in the order of R77. UNVERIFIED (log 1). -/
def noop : BitVec 4 := 0
def compareZero : BitVec 4 := 1
def sqrt : BitVec 4 := 2
def copy : BitVec 4 := 3
def readInput : BitVec 4 := 4

/-- Compare modes, in the order of R79. UNVERIFIED (log 1). -/
def modeLt : BitVec 3 := 0
def modeLe : BitVec 3 := 1
def modeEq : BitVec 3 := 2
def modeGe : BitVec 3 := 3
def modeGt : BitVec 3 := 4

end Opcode

/-- The opcode tables this hardware takes: each list numbered from 0 in the order the source writes it
(30_encoding.md R77, R79; log 1). -/
def OpcodeTables.reference : OpcodeTables where
  primary :=
    { add := Opcode.add, sub := Opcode.sub, mult := Opcode.mult, div := Opcode.div, output := Opcode.output,
      select := Opcode.select }
  secondary :=
    { noop := Opcode.noop, compareZero := Opcode.compareZero, sqrt := Opcode.sqrt, copy := Opcode.copy,
      readInput := Opcode.readInput }
  mode :=
    { lt := Opcode.modeLt, le := Opcode.modeLe, eq := Opcode.modeEq, ge := Opcode.modeGe, gt := Opcode.modeGt }

/-! ## Fields (30_encoding.md R71, R72, R74) -/

/-- Both field sets of a word; the form decides which of them is meaningful (30_encoding.md R74). -/
structure Fields where
  primary   : BitVec 4
  operandA  : Addr
  operandB  : Addr
  secondary : BitVec 4
  mode      : BitVec 3
  bit20     : BitVec 1
  immediate : BitVec 6
  source    : Addr
deriving DecidableEq, Repr

/-- Extraction of both field sets: every field is an unsigned slice of the word (30_encoding.md R71, R72, R76). -/
def fields (w : Word) : Fields where
  primary   := w.extractLsb' 28 4
  operandA  := w.extractLsb' 14 14
  operandB  := w.extractLsb' 0 14
  secondary := w.extractLsb' 24 4
  mode      := w.extractLsb' 21 3
  bit20     := w.extractLsb' 20 1
  immediate := w.extractLsb' 14 6
  source    := w.extractLsb' 0 14

/-! ## The decoder -/

/-- The D-form by its primary opcode, 1 to 15 (30_encoding.md R75, R77, R78, R81). -/
def decodeD (t : PrimaryCodes) (f : Fields) : Instr :=
  if f.primary = t.add then .add f.operandA f.operandB
  else if f.primary = t.sub then .sub f.operandA f.operandB
  else if f.primary = t.mult then .mult f.operandA f.operandB
  else if f.primary = t.div then .div f.operandA f.operandB
  else if f.primary = t.output then .output f.operandA f.operandB
  else if f.primary = t.select then .select f.operandA f.operandB
  else if f.primary = 7 then .invalidPrimary7 f.operandA f.operandB
  else .invalidPrimary8to15 f.primary f.operandA f.operandB

/-- COMPARE_ZERO by its compare mode (30_encoding.md R79, R83). -/
def decodeCompare (t : ModeCodes) (f : Fields) : Instr :=
  if f.mode = t.lt then .compareZeroLt f.bit20 f.immediate f.source
  else if f.mode = t.le then .compareZeroLe f.bit20 f.immediate f.source
  else if f.mode = t.eq then .compareZeroEq f.bit20 f.immediate f.source
  else if f.mode = t.ge then .compareZeroGe f.bit20 f.immediate f.source
  else if f.mode = t.gt then .compareZeroGt f.bit20 f.immediate f.source
  else if f.mode = 5 then .invalidCompareMode5 f.bit20 f.immediate f.source
  else .invalidCompareMode6to7 f.mode f.bit20 f.immediate f.source

/-- The S-form by its secondary opcode (30_encoding.md R75, R78, R82). -/
def decodeS (t : OpcodeTables) (f : Fields) : Instr :=
  if f.secondary = t.secondary.noop then .noop f.mode f.bit20 f.immediate f.source
  else if f.secondary = t.secondary.compareZero then decodeCompare t.mode f
  else if f.secondary = t.secondary.sqrt then .sqrt f.mode f.bit20 f.immediate f.source
  else if f.secondary = t.secondary.copy then .copy f.mode f.bit20 f.immediate f.source
  else if f.secondary = t.secondary.readInput then .readInput f.mode f.bit20 f.immediate f.source
  else if f.secondary = 5 then .invalidSecondary5 f.mode f.bit20 f.immediate f.source
  else if f.secondary = 6 ∨ f.secondary = 7 then .invalidSecondary6to7 f.secondary f.mode f.bit20 f.immediate f.source
  else .invalidSecondary8to15 f.secondary f.mode f.bit20 f.immediate f.source

/-- The Instruction Codec: a total function of the 32 bits; it never fails, and tags an undefined word INVALID by
the constructor of its table row. The numbers of the cases are the tables' (30_encoding.md R73, R75, R77). -/
def decode (t : OpcodeTables) (w : Word) : Instr :=
  let f := fields w
  if f.primary = Opcode.subDispatch then decodeS t f else decodeD t.primary f

/-- The decode tag is INVALID (30_encoding.md R75, R81 to R83). -/
def Instr.isInvalid : Instr → Bool
  | .add _ _ | .sub _ _ | .mult _ _ | .div _ _ | .output _ _ | .select _ _ => false
  | .noop _ _ _ _ => false
  | .compareZeroLt _ _ _ | .compareZeroLe _ _ _ | .compareZeroEq _ _ _ => false
  | .compareZeroGe _ _ _ | .compareZeroGt _ _ _ => false
  | .sqrt _ _ _ _ | .copy _ _ _ _ | .readInput _ _ _ _ => false
  | .invalidPrimary7 _ _ | .invalidPrimary8to15 _ _ _ => true
  | .invalidSecondary5 _ _ _ _ | .invalidSecondary6to7 _ _ _ _ _ | .invalidSecondary8to15 _ _ _ _ _ => true
  | .invalidCompareMode5 _ _ _ | .invalidCompareMode6to7 _ _ _ _ => true

/-! ## The encoder (30_encoding.md R80) -/

/-- `encode_D`: primary_opcode, operand_a, operand_b from the top (30_encoding.md R71, R80). -/
def encodeD (primary : BitVec 4) (a b : Addr) : Word := primary ++ a ++ b

/-- `encode_S`: four zero bits, then secondary_opcode, compare_mode, bit20, immediate, source
(30_encoding.md R72, R80). -/
def encodeS (secondary : BitVec 4) (mode : BitVec 3) (bit20 : BitVec 1) (immediate : BitVec 6) (src : Addr) : Word :=
  Opcode.subDispatch ++ secondary ++ mode ++ bit20 ++ immediate ++ src

/-- The word of an instruction under the tables (30_encoding.md R77, R78, R80). -/
def encode (c : OpcodeTables) : Instr → Word
  | .add a b => encodeD c.primary.add a b
  | .sub a b => encodeD c.primary.sub a b
  | .mult a b => encodeD c.primary.mult a b
  | .div a b => encodeD c.primary.div a b
  | .output port b => encodeD c.primary.output port b
  | .select a b => encodeD c.primary.select a b
  | .noop m t i s => encodeS c.secondary.noop m t i s
  | .compareZeroLt t i s => encodeS c.secondary.compareZero c.mode.lt t i s
  | .compareZeroLe t i s => encodeS c.secondary.compareZero c.mode.le t i s
  | .compareZeroEq t i s => encodeS c.secondary.compareZero c.mode.eq t i s
  | .compareZeroGe t i s => encodeS c.secondary.compareZero c.mode.ge t i s
  | .compareZeroGt t i s => encodeS c.secondary.compareZero c.mode.gt t i s
  | .sqrt m t i s => encodeS c.secondary.sqrt m t i s
  | .copy m t i s => encodeS c.secondary.copy m t i s
  | .readInput m t i p => encodeS c.secondary.readInput m t i p
  | .invalidPrimary7 a b => encodeD 7 a b
  | .invalidPrimary8to15 p a b => encodeD p a b
  | .invalidSecondary5 m t i s => encodeS 5 m t i s
  | .invalidSecondary6to7 o m t i s => encodeS o m t i s
  | .invalidSecondary8to15 o m t i s => encodeS o m t i s
  | .invalidCompareMode5 t i s => encodeS c.secondary.compareZero 5 t i s
  | .invalidCompareMode6to7 m t i s => encodeS c.secondary.compareZero m t i s

/-! ## Bytes (20_memory.md R54) -/

/-- The value of bytes in ascending offset, least significant first (20_memory.md R54). -/
def littleNat : List Byte → Nat
  | [] => 0
  | b :: rest => b.toNat + 256 * littleNat rest

/-- The value of the bytes of one field under IMAGE_ENDIAN (20_memory.md R54). -/
def endianNat (e : Endian) (bytes : List Byte) : Nat :=
  match e with
  | .little => littleNat bytes
  | .big => littleNat bytes.reverse

/-- The four bytes of a word, least significant first. -/
def littleBytes (w : Word) : List Byte :=
  [w.extractLsb' 0 8, w.extractLsb' 8 8, w.extractLsb' 16 8, w.extractLsb' 24 8]

/-- Why the byte decoder answers no instruction. -/
inductive DecodeReject where
  /-- Fewer than four bytes: no whole instruction word (30_encoding.md R70). -/
  | truncatedWord
deriving DecidableEq, Repr

/-- The instruction in the first four bytes of a byte string, with the rest of it. Total; it rejects by name only a
string too short to hold a word (30_encoding.md R70, R75). -/
def decodeBytes (t : OpcodeTables) (e : Endian) : List Byte → Except DecodeReject (Instr × List Byte)
  | b0 :: b1 :: b2 :: b3 :: rest =>
    .ok (decode t (BitVec.ofNat 32 (endianNat e [b0, b1, b2, b3])), rest)
  | _ => .error .truncatedWord

/-- The instruction the decoder reads from a word numbered as spec/opcode_table.json numbers it: the word is laid
out in the reference byte order and given, under the reference tables, to the byte decoder. -/
def decodeTableWord (nbits w : Nat) : Option Instr :=
  if nbits ≤ 32 then
    match decodeBytes .reference .little (littleBytes (BitVec.ofNat 32 (w % 2 ^ nbits))) with
    | .ok (i, _) => some i
    | .error _ => none
  else none

end Sys2Proof
end

