-- ==== Sys2Proof/Machine/Reference.lean ====
section
/-! DEFINITION. The values this hardware takes for the parameters (spec/00_scope.md section 4, column "value";
spec/30_encoding.md R77). -/

namespace Sys2Proof

/-- The reference machine: MEM_CAPACITY is 32768, the opcode tables are those of decision D1. -/
def Config.reference : Config where
  opcodes        := .reference
  extraSlots     := 16384
  imageEndian    := .little
  statusReset    := .cleared
  invalidPolicy  := .refuse
  runWhenCreated := .noop
  reloadPolicy   := .refuse

end Sys2Proof
end

