-- ==== Sys2Proof/Machine/State.lean ====
section
/-! DEFINITION. The state of one VM instance as plain data (spec/10_state.md), what the host asks of it and is
answered (spec/43_sequencer_and_host.md section 6), why a step can stop, and the state after create (R31). -/

namespace Sys2Proof.Machine

/-- A slot or port array, sparse: the pairs (index, value) of the entries that do not hold `+0.0`, indices strictly
rising. An index that is not listed reads `+0.0`, its content after create (10_state.md R31; log 21). -/
abbrev Memory := List (Nat × F64)

/-- Lifecycle phase (10_state.md R26). -/
inductive Phase where
  | created
  | ready
  | destroyed
deriving DecidableEq, Repr

/-- What load is given (43_sequencer_and_host.md R160): a byte string, or a stream that cannot be opened or read
(60_exceptions.md R184). -/
inductive ByteSource where
  | unreadable
  | bytes (image : List Byte)
deriving DecidableEq, Repr

/-- The error outcomes of load (60_exceptions.md R184, R185, R186). -/
inductive LoadError where
  | unreadable
  | tooLong
  | invalidEncoding
deriving DecidableEq, Repr

/-- The six host operations (43_sequencer_and_host.md R160). -/
inductive HostOp where
  | create
  | load (source : ByteSource)
  | runCycle
  | writeInput (port : Nat) (value : F64)
  | readOutput (port : Nat)
  | destroy
deriving DecidableEq, Repr

/-- What a host operation returns to the host: load its outcome (43_sequencer_and_host.md R162), read_output a
value (R168), and run_cycle an explicit error where RUN_WHEN_CREATED is error (R166). -/
inductive Reply where
  | loadOk
  | loadError (e : LoadError)
  | output (value : F64)
  | runError
deriving DecidableEq, Repr

/-- The state of one VM instance. `phase` to `pc` are the spec's (10_state.md); `cfg` holds the parameters of the
machine and no step changes it (log 18); `pending`, `replies` and `draws` are the model's own (logs 6, 16). -/
structure State where
  cfg     : Config
  phase   : Phase
  imem    : List Word
  mem     : Memory
  status  : Bool
  inPort  : Memory
  outPort : Memory
  pc      : Nat
  pending : List HostOp
  replies : List Reply
  draws   : Nat
deriving DecidableEq, Repr

/-- `N`, the program length in lines: the length of the instruction store (10_state.md R23). -/
def State.n (s : State) : Nat := s.imem.length

/-- Why the machine would stop with a fault. The hardware has no run-time fault (60_exceptions.md R180). -/
inductive Fault where
  /-- Raised by a write to the slot of a line at or above MEM_CAPACITY, a slot the spec says does not exist
  (20_memory.md R42, R57). SAFE: no state that meets the invariant raises it (log 22). -/
  | slotOutsideMemory
deriving DecidableEq, Repr

/-- Why the model gives a request no meaning (60_exceptions.md R191). All are SAFE: a refusal proves nothing. -/
inductive Refusal where
  /-- Raised by an arm of exec whose instruction has no meaning yet; no arm does. SAFE. -/
  | notModelled (mnemonic : String)
  /-- Raised by the seven INVALID rows under INVALID_POLICY = refuse (42_sform.md R142). SAFE. -/
  | invalidLine
  /-- Raised by a load in phase ready under RELOAD_POLICY = refuse (43_sequencer_and_host.md R164). SAFE. -/
  | secondLoad
  /-- Raised by every host operation but create in phase destroyed (43_sequencer_and_host.md R170). SAFE. -/
  | instanceDestroyed
  /-- Raised by write_input and read_output with a port at or above PORT_COUNT (43_sequencer_and_host.md R167,
  R168). SAFE. -/
  | portOutOfRange
  /-- Raised by a host operation given while a cycle is in progress (20_memory.md R66). SAFE. -/
  | hostDuringCycle
deriving DecidableEq, Repr

/-- The machine right after create with the reference parameters (10_state.md R31), no host operation pending. -/
def State.reset : State where
  cfg     := Config.reference
  phase   := .created
  imem    := []
  mem     := []
  status  := false
  inPort  := []
  outPort := []
  pc      := 0
  pending := []
  replies := []
  draws   := 0

end Sys2Proof.Machine
end

