-- ==== Sys2Proof/Machine/Ops.lean ====
section
/-! DEFINITION. The named operations on arrays and on the state that the instructions are made of: MemRead and
MemWrite (spec/00_scope.md section 5), the write of an instruction's own slot, the free NaN, the line counter.
The machine takes no exception and returns from none (spec/60_exceptions.md R188, R189), so no operation for
either stands here. -/

namespace Sys2Proof.Machine

/-! ## Arrays of f64 (10_state.md R21, R27, R28) -/

/-- The f64 at an index; an index not listed holds `+0.0` (10_state.md R31). Reading changes nothing
(20_memory.md R48). -/
def Memory.read : Memory → Nat → F64
  | [], _ => F64.posZero
  | (k, v) :: rest, a => if k = a then v else Memory.read rest a

/-- The array with `v` at index `a` and every other index as before, in canonical form: a `+0.0` is not listed. -/
def Memory.write : Memory → Nat → F64 → Memory
  | [], a, v => if v = F64.posZero then [] else [(a, v)]
  | (k, w) :: rest, a, v =>
    if a < k then
      if v = F64.posZero then (k, w) :: rest else (a, v) :: (k, w) :: rest
    else if a = k then
      if v = F64.posZero then rest else (a, v) :: rest
    else (k, w) :: Memory.write rest a v

/-- The canonical form: indices strictly rising, and no `+0.0` listed, so that equal arrays are equal data. -/
abbrev Memory.wf (m : Memory) : Prop :=
  m.Pairwise (fun p q => p.1 < q.1) ∧ ∀ p ∈ m, p.2 ≠ F64.posZero

/-- Every listed index is below a bound. -/
abbrev Memory.below (m : Memory) (bound : Nat) : Prop := ∀ p ∈ m, p.1 < bound

/-- `Mem[i], Mem[i+1], …` receive the values of a list in order (20_memory.md R58). -/
def Memory.writeFrom : Memory → Nat → List F64 → Memory
  | m, _, [] => m
  | m, i, c :: cs => Memory.writeFrom (m.write i c) (i + 1) cs

/-! ## The line counter (10_state.md R22; 43_sequencer_and_host.md R155) -/

/-- `pc <- pc + 1`: what every instruction does to the line counter (43_sequencer_and_host.md R150). -/
def State.advance (s : State) : State := { s with pc := s.pc + 1 }

/-- The word of the line to be executed: line `pc`, while a cycle is in progress. Between cycles `pc` is `N`, and a
cycle is in progress exactly when the phase is ready and `pc < N` (43_sequencer_and_host.md R150, R152; log 11). -/
def State.fetch (s : State) : Option Word :=
  match s.phase with
  | .ready => s.imem[s.pc]?
  | .created => none
  | .destroyed => none

/-! ## The instruction's own slot (20_memory.md R45) -/

/-- `MemWrite(slot, 1, v)` and the advance: the own slot is the line index, held by `pc` (10_state.md R22). A slot
at or above MEM_CAPACITY does not exist (20_memory.md R57; log 22). -/
def State.writeSlot (s : State) (v : F64) : Host.Outcome State Fault Refusal :=
  if s.pc < s.cfg.memCapacity then .next { s with mem := s.mem.write s.pc v }.advance
  else .fault .slotOutsideMemory

/-- The next NAN_RESULT draw: a free NaN pattern (40_dform_arithmetic.md R102; log 6). -/
def State.freeNaN (s : State) : F64 :=
  F64.nanPattern (Config.nanSign s.draws) (Config.nanFractionPred s.draws)

/-- The draw is used up: the next one is fresh (40_dform_arithmetic.md R102). -/
def State.draw (s : State) : State := { s with draws := s.draws + 1 }

/-- The own slot receives the result of an arithmetic function: its pattern, or a fresh free NaN
(40_dform_arithmetic.md R100, R102). -/
def State.writeResult (s : State) (r : FpResult) : Host.Outcome State Fault Refusal :=
  match r with
  | .value v => s.writeSlot v
  | .nan => s.draw.writeSlot s.freeNaN

/-! ## An undefined encoding (42_sform.md R142) -/

/-- An INVALID line: refused, or executed as NOOP, by INVALID_POLICY (42_sform.md R142; log 7). -/
def State.invalidLine (s : State) : Host.Outcome State Fault Refusal :=
  match s.cfg.invalidPolicy with
  | .refuse => .refused .invalidLine
  | .noop => .next s.advance

end Sys2Proof.Machine
end

