-- ==== Sys2Proof/Machine/Operands.lean ====
section
/-! DEFINITION. The operand forms (spec/20_memory.md R41, R42; spec/43_sequencer_and_host.md R156): there is one
addressing mode, direct and absolute, a 14-bit field naming a slot, an input port or an output port. -/

namespace Sys2Proof.Machine

/-- The index a field names: the field's value itself, with no base, offset or scaling (20_memory.md R41). -/
def addrIndex (a : Addr) : Nat := a.toNat

/-- `MemRead(field, 1)`: a slot operand (20_memory.md R41, R44). -/
def State.slotOperand (s : State) (a : Addr) : F64 := s.mem.read (addrIndex a)

/-- `InPort[field]`: an input port operand; the port is not consumed (42_sform.md R140). -/
def State.portOperand (s : State) (p : Addr) : F64 := s.inPort.read (addrIndex p)

/-- `OutPort[field] <- v` and the advance (41_dform_output_select.md R120). -/
def State.writePort (s : State) (p : Addr) (v : F64) : State :=
  { s with outPort := s.outPort.write (addrIndex p) v }.advance

end Sys2Proof.Machine
end

