-- ==== Sys2Proof/Machine/Arithmetic.lean ====
section
/-! DEFINITION. The D-form arithmetic instructions ADD, SUB, MULT, DIV (spec/40_dform_arithmetic.md R108 to R114).
Both operands are read before the own slot is written (spec/20_memory.md R62). -/

namespace Sys2Proof.Machine

/-- ADD: the own slot receives the sum (40_dform_arithmetic.md R110). -/
def execAdd (a b : Addr) (s : State) : Host.Outcome State Fault Refusal :=
  s.writeResult (numerics.fadd (s.slotOperand a) (s.slotOperand b))

/-- SUB: the own slot receives the difference, operand_a less operand_b (40_dform_arithmetic.md R111). -/
def execSub (a b : Addr) (s : State) : Host.Outcome State Fault Refusal :=
  s.writeResult (numerics.fsub (s.slotOperand a) (s.slotOperand b))

/-- MULT: the own slot receives the product (40_dform_arithmetic.md R112). -/
def execMult (a b : Addr) (s : State) : Host.Outcome State Fault Refusal :=
  s.writeResult (numerics.fmul (s.slotOperand a) (s.slotOperand b))

/-- DIV: the own slot receives the quotient, operand_a by operand_b; a divisor that equals zero skips the write and
changes nothing but pc (40_dform_arithmetic.md R113, R114). -/
def execDiv (a b : Addr) (s : State) : Host.Outcome State Fault Refusal :=
  if (s.slotOperand b).feq0 then .next s.advance
  else s.writeResult (numerics.fdiv (s.slotOperand a) (s.slotOperand b))

end Sys2Proof.Machine
end

