-- ==== Sys2Proof/Machine/Movement.lean ====
section
/-! DEFINITION. The D-form data movement instructions OUTPUT and SELECT (spec/41_dform_output_select.md R120 to
R124). Moves are bit exact (R122). -/

namespace Sys2Proof.Machine

/-- OUTPUT: the output port operand_a receives the slot operand_b; the own slot is not touched
(41_dform_output_select.md R120, R121). -/
def execOutput (port b : Addr) (s : State) : Host.Outcome State Fault Refusal :=
  .next (s.writePort port (s.slotOperand b))

/-- SELECT: the own slot receives operand_a if the status flag is true, operand_b otherwise
(41_dform_output_select.md R123, R124). -/
def execSelect (a b : Addr) (s : State) : Host.Outcome State Fault Refusal :=
  s.writeSlot (if s.status then s.slotOperand a else s.slotOperand b)

end Sys2Proof.Machine
end

