-- ==== Sys2Proof/Machine/Flags.lean ====
section
/-! DEFINITION. The one flag of the machine (spec/10_state.md R24): its five computations and its write
(spec/42_sform.md R132, R133). -/

namespace Sys2Proof.Machine

/-- The relation a compare mode selects (42_sform.md R132). -/
inductive Relation where
  | lt
  | le
  | eq
  | ge
  | gt
deriving DecidableEq, Repr

/-- The value compared with zero, on the left of the relation, by IEEE 754 comparison (42_sform.md R132, R133). -/
def Relation.holdsOfZero (r : Relation) (v : F64) : Bool :=
  match r with
  | .lt => v.flt0
  | .le => v.fle0
  | .eq => v.feq0
  | .ge => v.fge0
  | .gt => v.fgt0

/-- `status <- b` and the advance (42_sform.md R132). -/
def State.setStatus (s : State) (b : Bool) : State := { s with status := b }.advance

/-- COMPARE_ZERO: the flag receives the comparison of a slot with zero, always (42_sform.md R132). -/
def State.compareZero (s : State) (r : Relation) (src : Addr) : State :=
  s.setStatus (r.holdsOfZero (s.slotOperand src))

end Sys2Proof.Machine
end

