-- ==== Sys2Proof/Machine/SingleOperand.lean ====
section
/-! DEFINITION. The S-form instructions NOOP, COMPARE_ZERO, SQRT, COPY, READ_INPUT (spec/42_sform.md R130 to R141,
R143). The ignored fields are arguments that no meaning uses (spec/30_encoding.md R85). -/

namespace Sys2Proof.Machine

/-- NOOP: no effect but the advance (42_sform.md R130). -/
def execNoop (s : State) : Host.Outcome State Fault Refusal := .next s.advance

/-- COMPARE_ZERO.LT (42_sform.md R132, R134). -/
def execCompareZeroLt (src : Addr) (s : State) : Host.Outcome State Fault Refusal := .next (s.compareZero .lt src)

/-- COMPARE_ZERO.LE (42_sform.md R132, R135). -/
def execCompareZeroLe (src : Addr) (s : State) : Host.Outcome State Fault Refusal := .next (s.compareZero .le src)

/-- COMPARE_ZERO.EQ (42_sform.md R132, R136). -/
def execCompareZeroEq (src : Addr) (s : State) : Host.Outcome State Fault Refusal := .next (s.compareZero .eq src)

/-- COMPARE_ZERO.GE (42_sform.md R132, R137). -/
def execCompareZeroGe (src : Addr) (s : State) : Host.Outcome State Fault Refusal := .next (s.compareZero .ge src)

/-- COMPARE_ZERO.GT (42_sform.md R132, R138). -/
def execCompareZeroGt (src : Addr) (s : State) : Host.Outcome State Fault Refusal := .next (s.compareZero .gt src)

/-- SQRT: the own slot receives the square root; a value below zero gives a NaN, written like any other result
(42_sform.md R139). -/
def execSqrt (src : Addr) (s : State) : Host.Outcome State Fault Refusal :=
  s.writeResult (numerics.fsqrt (s.slotOperand src))

/-- COPY: the own slot receives the slot source, bit exact (42_sform.md R141). -/
def execCopy (src : Addr) (s : State) : Host.Outcome State Fault Refusal := s.writeSlot (s.slotOperand src)

/-- READ_INPUT: the own slot receives the input port source, bit exact (42_sform.md R140). -/
def execReadInput (port : Addr) (s : State) : Host.Outcome State Fault Refusal := s.writeSlot (s.portOperand port)

end Sys2Proof.Machine
end

