-- ==== Sys2Proof/Machine/Undefined.lean ====
section
/-! DEFINITION. The words no operation matches (spec/30_encoding.md R81 to R84; spec/42_sform.md R142): the seven
INVALID rows of the opcode table, each refused or executed as NOOP by INVALID_POLICY (log 7). -/

namespace Sys2Proof.Machine

/-- INVALID, primary 7 (30_encoding.md R81; 42_sform.md R142). -/
def execInvalidPrimary7 (s : State) : Host.Outcome State Fault Refusal := s.invalidLine

/-- INVALID, primary 8 to 15 (30_encoding.md R81; 42_sform.md R142). -/
def execInvalidPrimary8to15 (s : State) : Host.Outcome State Fault Refusal := s.invalidLine

/-- INVALID, secondary 5 (30_encoding.md R82; 42_sform.md R142). -/
def execInvalidSecondary5 (s : State) : Host.Outcome State Fault Refusal := s.invalidLine

/-- INVALID, secondary 6 or 7 (30_encoding.md R82; 42_sform.md R142). -/
def execInvalidSecondary6to7 (s : State) : Host.Outcome State Fault Refusal := s.invalidLine

/-- INVALID, secondary 8 to 15 (30_encoding.md R82; 42_sform.md R142). -/
def execInvalidSecondary8to15 (s : State) : Host.Outcome State Fault Refusal := s.invalidLine

/-- INVALID, COMPARE_ZERO with mode 5 (30_encoding.md R83; 42_sform.md R142). -/
def execInvalidCompareMode5 (s : State) : Host.Outcome State Fault Refusal := s.invalidLine

/-- INVALID, COMPARE_ZERO with mode 6 or 7 (30_encoding.md R83; 42_sform.md R142). -/
def execInvalidCompareMode6to7 (s : State) : Host.Outcome State Fault Refusal := s.invalidLine

end Sys2Proof.Machine
end

