-- ==== Sys2Proof/Machine/Dispatch.lean ====
section
/-! DEFINITION. `execute` of spec/43_sequencer_and_host.md R154: one arm per instruction, each one call of its
meaning. The slot of the instruction is the line counter of the state (R150). -/

namespace Sys2Proof.Machine

/-- Execute one decoded instruction (43_sequencer_and_host.md R150, R154). -/
def exec (i : Instr) (s : State) : Host.Outcome State Fault Refusal :=
  match i with
  -- D-form, arithmetic (40_dform_arithmetic.md)
  | .add a b => Sys2Proof.Machine.execAdd a b s
  | .sub a b => Sys2Proof.Machine.execSub a b s
  | .mult a b => Sys2Proof.Machine.execMult a b s
  | .div a b => Sys2Proof.Machine.execDiv a b s
  -- D-form, data movement (41_dform_output_select.md)
  | .output port b => Sys2Proof.Machine.execOutput port b s
  | .select a b => Sys2Proof.Machine.execSelect a b s
  -- S-form (42_sform.md)
  | .noop _ _ _ _ => Sys2Proof.Machine.execNoop s
  | .compareZeroLt _ _ src => Sys2Proof.Machine.execCompareZeroLt src s
  | .compareZeroLe _ _ src => Sys2Proof.Machine.execCompareZeroLe src s
  | .compareZeroEq _ _ src => Sys2Proof.Machine.execCompareZeroEq src s
  | .compareZeroGe _ _ src => Sys2Proof.Machine.execCompareZeroGe src s
  | .compareZeroGt _ _ src => Sys2Proof.Machine.execCompareZeroGt src s
  | .sqrt _ _ _ src => Sys2Proof.Machine.execSqrt src s
  | .copy _ _ _ src => Sys2Proof.Machine.execCopy src s
  | .readInput _ _ _ port => Sys2Proof.Machine.execReadInput port s
  -- INVALID (42_sform.md R142)
  | .invalidPrimary7 _ _ => Sys2Proof.Machine.execInvalidPrimary7 s
  | .invalidPrimary8to15 _ _ _ => Sys2Proof.Machine.execInvalidPrimary8to15 s
  | .invalidSecondary5 _ _ _ _ => Sys2Proof.Machine.execInvalidSecondary5 s
  | .invalidSecondary6to7 _ _ _ _ _ => Sys2Proof.Machine.execInvalidSecondary6to7 s
  | .invalidSecondary8to15 _ _ _ _ _ => Sys2Proof.Machine.execInvalidSecondary8to15 s
  | .invalidCompareMode5 _ _ _ => Sys2Proof.Machine.execInvalidCompareMode5 s
  | .invalidCompareMode6to7 _ _ _ _ => Sys2Proof.Machine.execInvalidCompareMode6to7 s

end Sys2Proof.Machine
end

