-- ==== Sys2Proof/Machine/Load.lean ====
section
/-! DEFINITION. The program image and the load procedure (spec/20_memory.md R51 to R60; spec/60_exceptions.md R183
to R187). -/

namespace Sys2Proof.Machine

/-! ## Records (20_memory.md R52, R54, R55) -/

/-- `word_at(o)`: the four bytes at offset `o` in IMAGE_ENDIAN order (20_memory.md R54, R58). -/
def wordAt (e : Endian) (image : List Byte) (o : Nat) : Word :=
  BitVec.ofNat 32 (endianNat e ((image.drop o).take 4))

/-- `double_at(o)`: the eight bytes at offset `o` in IMAGE_ENDIAN order (20_memory.md R54, R58). -/
def doubleAt (e : Endian) (image : List Byte) (o : Nat) : F64 :=
  BitVec.ofNat 64 (endianNat e ((image.drop o).take 8))

/-- `floor(L / 12)`: the number of complete records; the rest of the bytes are dropped (20_memory.md R55). -/
def recordCount (image : List Byte) : Nat := image.length / 12

/-- The word of record `i`: last in an even record, first in an odd one (20_memory.md R52). -/
def recordWord (e : Endian) (image : List Byte) (i : Nat) : Word :=
  if i % 2 = 0 then wordAt e image (12 * i + 8) else wordAt e image (12 * i)

/-- The constant of record `i`: first in an even record, last in an odd one, taken bit for bit
(20_memory.md R52, R56). -/
def recordConstant (e : Endian) (image : List Byte) (i : Nat) : F64 :=
  if i % 2 = 0 then doubleAt e image (12 * i) else doubleAt e image (12 * i + 4)

/-- The words of the complete records, in line order. -/
def imageWords (e : Endian) (image : List Byte) : List Word :=
  (List.range (recordCount image)).map (recordWord e image)

/-- The constants of the complete records, in line order. -/
def imageConstants (e : Endian) (image : List Byte) : List F64 :=
  (List.range (recordCount image)).map (recordConstant e image)

/-! ## The load procedure (20_memory.md R58) -/

/-- Some word of a program is undefined (60_exceptions.md R186). -/
def holdsInvalid (t : OpcodeTables) (words : List Word) : Bool := words.any fun w => (decode t w).isInvalid

/-- The checks of load in their order: Unreadable, TooLong, InvalidEncoding (60_exceptions.md R183). The answer is
the image that may be installed, or the error outcome. -/
def loadCheck (c : Config) : ByteSource → Except LoadError (List Byte)
  | .unreadable => .error .unreadable
  | .bytes image =>
    if c.memCapacity < recordCount image then .error .tooLong
    else if c.invalidPolicy = .refuse ∧ holdsInvalid c.opcodes (imageWords c.imageEndian image) then
      .error .invalidEncoding
    else .ok image

/-- The writes of a load that succeeds: `IMem`, `N`, `Mem[0 .. N-1]` and `phase`; `pc` comes to stand at `N`, no
cycle being in progress (20_memory.md R58, R59; 10_state.md R32; log 11). -/
def State.install (s : State) (image : List Byte) : State :=
  { s with
    imem  := imageWords s.cfg.imageEndian image
    mem   := s.mem.writeFrom 0 (imageConstants s.cfg.imageEndian image)
    phase := .ready
    pc    := recordCount image }

/-- The host is returned a value; nothing else changes. -/
def State.reply (s : State) (r : Reply) : State := { s with replies := s.replies ++ [r] }

/-- load: on an error outcome no state changes (20_memory.md R58; 43_sequencer_and_host.md R162, R163). -/
def State.load (s : State) (source : ByteSource) : State :=
  match loadCheck s.cfg source with
  | .error e => s.reply (.loadError e)
  | .ok image => (s.install image).reply .loadOk

end Sys2Proof.Machine
end

