-- ==== Sys2Proof/Machine/HostOps.lean ====
section
/-! DEFINITION. The host operations create, load, run_cycle, write_input, read_output, destroy
(spec/43_sequencer_and_host.md R160 to R171), and the host's turn between cycles. -/

namespace Sys2Proof.Machine

/-- The status flag of a fresh instance: false, or a free value under STATUS_RESET = draw (00_scope.md R9). -/
def State.statusAtCreate (s : State) : Bool :=
  match s.cfg.statusReset with
  | .cleared => false
  | .draw => Config.statusAtCreate s.draws

/-- create: the state of a fresh instance (10_state.md R31; 43_sequencer_and_host.md R161), which the model follows
from here on (log 19). The machine's parameters, the host's coming operations and the host's record stay. -/
def State.create (s : State) : State :=
  { s with
    phase   := .created
    imem    := []
    mem     := []
    status  := s.statusAtCreate
    inPort  := []
    outPort := []
    pc      := 0
    draws   := match s.cfg.statusReset with
      | .cleared => s.draws
      | .draw => s.draws + 1 }

/-- load by phase: admitted in created; in ready by RELOAD_POLICY, refused or "destroy, create, load as one
operation"; refused in destroyed (43_sequencer_and_host.md R160, R164). -/
def hostLoad (source : ByteSource) (s : State) : Host.Outcome State Fault Refusal :=
  match s.phase with
  | .created => .next (s.load source)
  | .ready =>
    match s.cfg.reloadPolicy with
    | .refuse => .refused .secondLoad
    | .fresh => .next (s.create.load source)
  | .destroyed => .refused .instanceDestroyed

/-- run_cycle by phase: in ready `pc <- 0`, after which the lines are executed, one a step
(43_sequencer_and_host.md R152, R165); in created a no-op or an explicit error, by RUN_WHEN_CREATED (R166). -/
def hostRunCycle (s : State) : Host.Outcome State Fault Refusal :=
  match s.phase with
  | .created =>
    match s.cfg.runWhenCreated with
    | .noop => .next s
    | .error => .next (s.reply .runError)
  | .ready => .next { s with pc := 0 }
  | .destroyed => .refused .instanceDestroyed

/-- write_input: an input port receives a value, bit exact; a port outside the array is refused
(43_sequencer_and_host.md R167). -/
def hostWriteInput (port : Nat) (value : F64) (s : State) : Host.Outcome State Fault Refusal :=
  match s.phase with
  | .destroyed => .refused .instanceDestroyed
  | .created | .ready =>
    if port < Config.portCount then .next { s with inPort := s.inPort.write port value }
    else .refused .portOutOfRange

/-- read_output: the host is returned the value of an output port, bit exact, and nothing else changes; a port
outside the array is refused (43_sequencer_and_host.md R168). -/
def hostReadOutput (port : Nat) (s : State) : Host.Outcome State Fault Refusal :=
  match s.phase with
  | .destroyed => .refused .instanceDestroyed
  | .created | .ready =>
    if port < Config.portCount then .next (s.reply (.output (s.outPort.read port)))
    else .refused .portOutOfRange

/-- destroy: the phase becomes destroyed (43_sequencer_and_host.md R170). -/
def hostDestroy (s : State) : Host.Outcome State Fault Refusal :=
  match s.phase with
  | .destroyed => .refused .instanceDestroyed
  | .created | .ready => .next { s with phase := .destroyed }

/-- A host operation: refused while a cycle is in progress (20_memory.md R66; 60_exceptions.md R191). -/
def hostOp (op : HostOp) (s : State) : Host.Outcome State Fault Refusal :=
  if s.fetch.isSome then .refused .hostDuringCycle
  else
    match op with
    | .create => .next s.create
    | .load source => hostLoad source s
    | .runCycle => hostRunCycle s
    | .writeInput port value => hostWriteInput port value s
    | .readOutput port => hostReadOutput port s
    | .destroy => hostDestroy s

/-- The host's turn: the oldest pending operation, begun and done; with none pending the machine idles, all state
retained (20_memory.md R66; 60_exceptions.md R198; logs 16, 23). -/
def hostTurn (s : State) : Host.Outcome State Fault Refusal :=
  match s.pending with
  | [] => .next s
  | op :: rest => hostOp op { s with pending := rest }

end Sys2Proof.Machine
end

