-- ==== Sys2Proof/Machine/Step.lean ====
section
/-! DEFINITION. One step of the machine (spec/43_sequencer_and_host.md R150, R152), and how an instruction word is
placed where the next step fetches it. -/

namespace Sys2Proof.Machine

/-- One step: the line at `pc` while a cycle is in progress, fetched, decoded and executed; the host's turn
otherwise (43_sequencer_and_host.md R150; 20_memory.md R66). -/
def step (s : State) : Host.Outcome State Fault Refusal :=
  match s.fetch with
  | some w => exec (decode s.cfg.opcodes w) s
  | none => hostTurn s

/-- The state with an instruction word where the next step fetches its instruction: line `pc` of the cycle in
progress, or line 0 of a cycle that begins. It stands for a load and a run_cycle (log 20). -/
def State.withFetchWord (s : State) (nbits w : Nat) : State :=
  let word : Word := BitVec.ofNat 32 (w % 2 ^ nbits)
  match s.fetch with
  | some _ => { s with imem := s.imem.set s.pc word }
  | none => { s with phase := .ready, pc := 0, imem := word :: s.imem.tail }

end Sys2Proof.Machine
end

