-- ==== Sys2Proof/Safety.lean ====
section
/-! DEFINITION. What counts as a safe state, and the terms in which claims say what an instruction, a cycle and an
arithmetic function do. -/

namespace Sys2Proof

namespace Machine

/-! ## The invariant of a machine in use -/

/-- What holds of every state a machine comes to from create: opcode tables that give each name a code of its own
(30_encoding.md R77), the bounds of 10_state.md R22 and R23, the canonical arrays, no slot at or above `N` other than
`+0.0` (20_memory.md R44), an empty program before load (10_state.md R31), and under INVALID_POLICY = refuse no
undefined word in the program (60_exceptions.md R186). -/
structure State.Inv (s : State) : Prop where
  tables_legal  : s.cfg.opcodes.Legal
  lines_fit     : s.n ≤ s.cfg.memCapacity
  pc_le         : s.pc ≤ s.n
  mem_wf        : s.mem.wf
  mem_below     : s.mem.below s.n
  inPort_wf     : s.inPort.wf
  inPort_below  : s.inPort.below Config.portCount
  outPort_wf    : s.outPort.wf
  outPort_below : s.outPort.below Config.portCount
  created_empty : s.phase = .created → s.imem = []
  all_defined   : s.cfg.invalidPolicy = .refuse → ∀ w ∈ s.imem, (decode s.cfg.opcodes w).isInvalid = false

/-- The own slot of the line to be executed exists, and the data memory is in its canonical form. -/
structure State.CanWriteSlot (s : State) : Prop where
  slot_exists : s.pc < s.cfg.memCapacity
  mem_wf      : s.mem.wf

/-! ## Frames of one instruction -/

/-- What no instruction changes (43_sequencer_and_host.md R154), and the advance every instruction makes (R155). -/
structure Kept (s t : State) : Prop where
  pc      : t.pc = s.pc + 1
  cfg     : t.cfg = s.cfg
  phase   : t.phase = s.phase
  imem    : t.imem = s.imem
  inPort  : t.inPort = s.inPort
  pending : t.pending = s.pending
  replies : t.replies = s.replies

/-- Only the own slot and `pc` change: the slot holds `v`, every other slot reads as before. -/
structure SlotWritten (s t : State) (v : F64) : Prop extends Kept s t where
  slot    : t.mem.read s.pc = v
  others  : ∀ a, a ≠ s.pc → t.mem.read a = s.mem.read a
  status  : t.status = s.status
  outPort : t.outPort = s.outPort

/-- The own slot receives the result of an arithmetic function: its pattern, or some NaN of which nothing else is
known, for which one draw is used up (40_dform_arithmetic.md R102). -/
def ResultWritten (s t : State) : FpResult → Prop
  | .value v => SlotWritten s t v ∧ t.draws = s.draws
  | .nan => ∃ v, v.isNaN = true ∧ SlotWritten s t v ∧ t.draws = s.draws + 1

/-- Only one output port and `pc` change: the port holds `v`, every other port reads as before. -/
structure PortWritten (s t : State) (port : Nat) (v : F64) : Prop extends Kept s t where
  port_   : t.outPort.read port = v
  others  : ∀ p, p ≠ port → t.outPort.read p = s.outPort.read p
  mem     : t.mem = s.mem
  status  : t.status = s.status
  draws   : t.draws = s.draws

/-- Only the status flag and `pc` change. -/
structure StatusWritten (s t : State) (b : Bool) : Prop extends Kept s t where
  flag    : t.status = b
  mem     : t.mem = s.mem
  outPort : t.outPort = s.outPort
  draws   : t.draws = s.draws

/-- Only `pc` changes. -/
structure OnlyAdvanced (s t : State) : Prop extends Kept s t where
  mem     : t.mem = s.mem
  status  : t.status = s.status
  outPort : t.outPort = s.outPort
  draws   : t.draws = s.draws

/-- The instruction answers a next state of which `P` holds. -/
def CompletesWith (i : Instr) (s : State) (P : State → Prop) : Prop := ∃ t, exec i s = .next t ∧ P t

/-- The instruction is a COMPARE_ZERO, the only writer of the status flag (10_state.md R24). -/
def writesStatus : Instr → Bool
  | .compareZeroLt _ _ _ | .compareZeroLe _ _ _ | .compareZeroEq _ _ _ => true
  | .compareZeroGe _ _ _ | .compareZeroGt _ _ _ => true
  | .add _ _ | .sub _ _ | .mult _ _ | .div _ _ | .output _ _ | .select _ _ => false
  | .noop _ _ _ _ | .sqrt _ _ _ _ | .copy _ _ _ _ | .readInput _ _ _ _ => false
  | .invalidPrimary7 _ _ | .invalidPrimary8to15 _ _ _ => false
  | .invalidSecondary5 _ _ _ _ | .invalidSecondary6to7 _ _ _ _ _ | .invalidSecondary8to15 _ _ _ _ _ => false
  | .invalidCompareMode5 _ _ _ | .invalidCompareMode6to7 _ _ _ _ => false

/-- The instruction may write its own slot (43_sequencer_and_host.md R154, column "writes"). -/
def writesSlot : Instr → Bool
  | .add _ _ | .sub _ _ | .mult _ _ | .div _ _ | .select _ _ => true
  | .sqrt _ _ _ _ | .copy _ _ _ _ | .readInput _ _ _ _ => true
  | .output _ _ | .noop _ _ _ _ => false
  | .compareZeroLt _ _ _ | .compareZeroLe _ _ _ | .compareZeroEq _ _ _ => false
  | .compareZeroGe _ _ _ | .compareZeroGt _ _ _ => false
  | .invalidPrimary7 _ _ | .invalidPrimary8to15 _ _ _ => false
  | .invalidSecondary5 _ _ _ _ | .invalidSecondary6to7 _ _ _ _ _ | .invalidSecondary8to15 _ _ _ _ _ => false
  | .invalidCompareMode5 _ _ _ | .invalidCompareMode6to7 _ _ _ _ => false

/-- The output port the instruction writes: only OUTPUT writes one (10_state.md R28). -/
def writesPort : Instr → Option Nat
  | .output port _ => some (addrIndex port)
  | .add _ _ | .sub _ _ | .mult _ _ | .div _ _ | .select _ _ => none
  | .noop _ _ _ _ | .sqrt _ _ _ _ | .copy _ _ _ _ | .readInput _ _ _ _ => none
  | .compareZeroLt _ _ _ | .compareZeroLe _ _ _ | .compareZeroEq _ _ _ => none
  | .compareZeroGe _ _ _ | .compareZeroGt _ _ _ => none
  | .invalidPrimary7 _ _ | .invalidPrimary8to15 _ _ _ => none
  | .invalidSecondary5 _ _ _ _ | .invalidSecondary6to7 _ _ _ _ _ | .invalidSecondary8to15 _ _ _ _ _ => none
  | .invalidCompareMode5 _ _ _ | .invalidCompareMode6to7 _ _ _ _ => none

/-- The instruction is a SELECT, the only reader of the status flag (10_state.md R24). -/
def readsStatus : Instr → Bool
  | .select _ _ => true
  | .add _ _ | .sub _ _ | .mult _ _ | .div _ _ | .output _ _ => false
  | .noop _ _ _ _ | .sqrt _ _ _ _ | .copy _ _ _ _ | .readInput _ _ _ _ => false
  | .compareZeroLt _ _ _ | .compareZeroLe _ _ _ | .compareZeroEq _ _ _ => false
  | .compareZeroGe _ _ _ | .compareZeroGt _ _ _ => false
  | .invalidPrimary7 _ _ | .invalidPrimary8to15 _ _ _ => false
  | .invalidSecondary5 _ _ _ _ | .invalidSecondary6to7 _ _ _ _ _ | .invalidSecondary8to15 _ _ _ _ _ => false
  | .invalidCompareMode5 _ _ _ | .invalidCompareMode6to7 _ _ _ _ => false

/-! ## A cycle -/

/-- A line is to be executed: the phase is ready and `pc < N` (43_sequencer_and_host.md R150; log 11). -/
def State.cycleInProgress (s : State) : Prop := s.fetch.isSome = true

/-- The next step is the host's, and its operation makes a fresh instance: create, or a load in phase ready under
RELOAD_POLICY = fresh, which begins with create (43_sequencer_and_host.md R161, R164). -/
def State.mayCreate (s : State) : Prop :=
  s.fetch = none ∧ ∃ op rest, s.pending = op :: rest ∧
    (op = .create ∨ (∃ source, op = .load source) ∧ s.phase = .ready ∧ s.cfg.reloadPolicy = .fresh)

/-- The next step may change input port `p`: create, or write_input to `p` (10_state.md R27). -/
def State.mayWriteInPort (s : State) (p : Nat) : Prop :=
  s.mayCreate ∨ (s.fetch = none ∧ ∃ v rest, s.pending = .writeInput p v :: rest)

/-- The next step may change output port `p`: create, or an OUTPUT to `p` (10_state.md R28). -/
def State.mayWriteOutPort (s : State) (p : Nat) : Prop :=
  s.mayCreate ∨ ∃ w, s.fetch = some w ∧ writesPort (decode s.cfg.opcodes w) = some p

/-- A list of words executed one after another, each in the state the one before it left
(43_sequencer_and_host.md R150, R152; 20_memory.md R61). -/
def execInOrder : List Word → State → Host.Outcome State Fault Refusal
  | [], s => .next s
  | w :: ws, s =>
    match exec (decode s.cfg.opcodes w) s with
    | .next t => execInOrder ws t
    | .fault r => .fault r
    | .refused r => .refused r

end Machine

/-! ## Encodings -/

/-- Under the reference tables the D-form words with these top four bits decode to
`i operand_a operand_b` (30_encoding.md R71, R78). -/
def EncodesD (top : Nat) (i : Addr → Addr → Instr) : Prop :=
  ∀ a b : Addr, decode .reference (BitVec.ofNat 32 (top + a.toNat * 2 ^ 14 + b.toNat)) = i a b

/-- Under the reference tables the S-form words with these bits 31:24 decode to `i`, whatever compare_mode, bit20 and
immediate are (30_encoding.md R72, R78, R85). -/
def EncodesS (top : Nat) (i : BitVec 3 → BitVec 1 → BitVec 6 → Addr → Instr) : Prop :=
  ∀ (m : BitVec 3) (t : BitVec 1) (im : BitVec 6) (src : Addr),
    decode .reference
      (BitVec.ofNat 32 (top + m.toNat * 2 ^ 21 + t.toNat * 2 ^ 20 + im.toNat * 2 ^ 14 + src.toNat)) = i m t im src

/-- Under the reference tables the COMPARE_ZERO words with these bits 31:21 decode to `i`, whatever bit20 and immediate
are (30_encoding.md R72, R78, R85). -/
def EncodesCompare (top : Nat) (i : BitVec 1 → BitVec 6 → Addr → Instr) : Prop :=
  ∀ (t : BitVec 1) (im : BitVec 6) (src : Addr),
    decode .reference (BitVec.ofNat 32 (top + t.toNat * 2 ^ 20 + im.toNat * 2 ^ 14 + src.toNat)) = i t im src

/-! ## Correct rounding (40_dform_arithmetic.md R101, R105) -/

namespace F64

/-- How many units of `2^-1074` make `1.0`. -/
def unitsPerOne : Nat := 1 <<< 1074

/-- Half a last place above the greatest finite magnitude, in units of `2^-1074`: an exact magnitude from here on
rounds to an infinity (40_dform_arithmetic.md R101). -/
def overflowUnits : Nat := 18014398509481983 <<< 2044

/-- `r` is `num / den` units rounded to binary64 with roundTiesToEven (40_dform_arithmetic.md R101): an infinity
exactly where the magnitude is too large, else a finite value that no finite value is nearer than, with an even
significand where another is as near; and of the sign of the exact result. -/
structure RoundsTo (r : F64) (num : Int) (den : Nat) : Prop where
  not_nan  : r.isNaN = false
  inf_iff  : r.isInf = true ↔ overflowUnits * den ≤ num.natAbs
  negative : num < 0 → r.sign = true
  positive : 0 < num → r.sign = false
  nearest  : r.isFinite = true → ∀ c : F64, c.isFinite = true →
    |r.signedUnits * den - num| ≤ |c.signedUnits * den - num|
  ties     : r.isFinite = true → ∀ c : F64, c.isFinite = true →
    |r.signedUnits * den - num| = |c.signedUnits * den - num| → c.signedUnits ≠ r.signedUnits → r.fraction % 2 = 0

/-- `r` is the square root of `x` squared units rounded to binary64 with roundTiesToEven
(40_dform_arithmetic.md R105). A finite `c` above `r` lies no nearer than `r` when the root is at most half way to
it, `2 sqrt x ≤ r + c`; squared, this is a comparison of naturals. -/
structure RootRoundsTo (r : F64) (x : Nat) : Prop where
  finite   : r.isFinite = true
  positive : r.sign = false
  above    : ∀ c : F64, c.isFinite = true → r.units < c.units →
    4 * x ≤ (r.units + c.units) ^ 2 ∧ (4 * x = (r.units + c.units) ^ 2 → r.fraction % 2 = 0)
  below    : ∀ c : F64, c.isFinite = true → c.units < r.units →
    (r.units + c.units) ^ 2 ≤ 4 * x ∧ ((r.units + c.units) ^ 2 = 4 * x → r.fraction % 2 = 0)

end F64

end Sys2Proof
end

