-- ==== Sys2Proof/Certificates/Slice0/Obligations.lean ====
section
/-! DEFINITION. The statements about the model, for the provers. Each says which rule of spec/ it formalises. -/

open Sys2Proof Sys2Proof.Machine

/-! ## Encoding (30_encoding.md) -/

/-- Words of the opcode table and of 95_test_vectors.md V1 decode to the instructions they stand for, one of every
family and one of every INVALID row. -/
def Obligations.TableWordsDecodeToTheirInstructions : Prop :=
  decode .reference 0x10004002 = .add 1 2 ∧ decode .reference 0x2000C004 = .sub 3 4 ∧
  decode .reference 0x3FFFFFFF = .mult 16383 16383 ∧ decode .reference 0x40004000 = .div 1 0 ∧
  decode .reference 0x5001C002 = .output 7 2 ∧ decode .reference 0x60008000 = .select 2 0 ∧
  decode .reference 0x00FFFFFF = .noop 7 1 63 16383 ∧ decode .reference 0x011FC005 = .compareZeroLt 1 63 5 ∧
  decode .reference 0x01200005 = .compareZeroLe 0 0 5 ∧ decode .reference 0x01400005 = .compareZeroEq 0 0 5 ∧
  decode .reference 0x01600005 = .compareZeroGe 0 0 5 ∧ decode .reference 0x019FFFFF = .compareZeroGt 1 63 16383 ∧
  decode .reference 0x02A00004 = .sqrt 5 0 0 4 ∧ decode .reference 0x03000001 = .copy 0 0 0 1 ∧
  decode .reference 0x04003E80 = .readInput 0 0 0 16000 ∧ decode .reference 0x70000000 = .invalidPrimary7 0 0 ∧
  decode .reference 0xFFFFFFFF = .invalidPrimary8to15 15 16383 16383 ∧
  decode .reference 0x05000000 = .invalidSecondary5 0 0 0 0 ∧
  decode .reference 0x06000000 = .invalidSecondary6to7 6 0 0 0 0 ∧
  decode .reference 0x0F000000 = .invalidSecondary8to15 15 0 0 0 0 ∧
  decode .reference 0x01A00000 = .invalidCompareMode5 0 0 0 ∧
  decode .reference 0x01C00005 = .invalidCompareMode6to7 6 0 0 5

/-- R74: both field sets are extracted from every word, and the two layouts overlay the same bits
(marked in the spec "derived: from rules R71 and R72"). -/
def Obligations.FieldSetsOverlayTheSameBits : Prop :=
  ∀ w : Word,
    (fields w).source = (fields w).operandB ∧
    (fields w).operandA = (fields w).secondary ++ (fields w).mode ++ (fields w).bit20 ++ (fields w).immediate ∧
    (fields w).operandA.toNat = (fields w).secondary.toNat * 1024 + (fields w).mode.toNat * 128 +
      (fields w).bit20.toNat * 64 + (fields w).immediate.toNat

/-- R80: the encoders are their sums, and re-encoding the fields of any word gives the word back, by `encode_D` when
primary_opcode is not 0 and by `encode_S` when it is (marked in the spec "derived: from rules R71, R72"). -/
def Obligations.EncodersGiveEveryWordBack : Prop :=
  (∀ (p : BitVec 4) (a b : Addr), (encodeD p a b).toNat = p.toNat * 2 ^ 28 + a.toNat * 2 ^ 14 + b.toNat) ∧
  (∀ (o : BitVec 4) (m : BitVec 3) (t : BitVec 1) (i : BitVec 6) (src : Addr), (encodeS o m t i src).toNat =
    o.toNat * 2 ^ 24 + m.toNat * 2 ^ 21 + t.toNat * 2 ^ 20 + i.toNat * 2 ^ 14 + src.toNat) ∧
  ∀ w : Word,
    ((fields w).primary ≠ 0 → encodeD (fields w).primary (fields w).operandA (fields w).operandB = w) ∧
    ((fields w).primary = 0 → encodeS (fields w).secondary (fields w).mode (fields w).bit20 (fields w).immediate
      (fields w).source = w)

/-- R78: a word is an operation exactly when `w AND mask = match` for the operation's row, and a word that no row
matches is INVALID. -/
def Obligations.OpcodeMapRowsSelectTheirOperation : Prop :=
  ∀ w : Word,
    (w &&& 0xF0000000 = 0x10000000 ↔ ∃ a b, decode .reference w = .add a b) ∧
    (w &&& 0xF0000000 = 0x20000000 ↔ ∃ a b, decode .reference w = .sub a b) ∧
    (w &&& 0xF0000000 = 0x30000000 ↔ ∃ a b, decode .reference w = .mult a b) ∧
    (w &&& 0xF0000000 = 0x40000000 ↔ ∃ a b, decode .reference w = .div a b) ∧
    (w &&& 0xF0000000 = 0x50000000 ↔ ∃ p b, decode .reference w = .output p b) ∧
    (w &&& 0xF0000000 = 0x60000000 ↔ ∃ a b, decode .reference w = .select a b) ∧
    (w &&& 0xFF000000 = 0x00000000 ↔ ∃ m t i src, decode .reference w = .noop m t i src) ∧
    (w &&& 0xFFE00000 = 0x01000000 ↔ ∃ t i src, decode .reference w = .compareZeroLt t i src) ∧
    (w &&& 0xFFE00000 = 0x01200000 ↔ ∃ t i src, decode .reference w = .compareZeroLe t i src) ∧
    (w &&& 0xFFE00000 = 0x01400000 ↔ ∃ t i src, decode .reference w = .compareZeroEq t i src) ∧
    (w &&& 0xFFE00000 = 0x01600000 ↔ ∃ t i src, decode .reference w = .compareZeroGe t i src) ∧
    (w &&& 0xFFE00000 = 0x01800000 ↔ ∃ t i src, decode .reference w = .compareZeroGt t i src) ∧
    (w &&& 0xFF000000 = 0x02000000 ↔ ∃ m t i src, decode .reference w = .sqrt m t i src) ∧
    (w &&& 0xFF000000 = 0x03000000 ↔ ∃ m t i src, decode .reference w = .copy m t i src) ∧
    (w &&& 0xFF000000 = 0x04000000 ↔ ∃ m t i p, decode .reference w = .readInput m t i p) ∧
    ((decode .reference w).isInvalid = true ↔
      w &&& 0xF0000000 ≠ 0x10000000 ∧ w &&& 0xF0000000 ≠ 0x20000000 ∧ w &&& 0xF0000000 ≠ 0x30000000 ∧
      w &&& 0xF0000000 ≠ 0x40000000 ∧ w &&& 0xF0000000 ≠ 0x50000000 ∧ w &&& 0xF0000000 ≠ 0x60000000 ∧
      w &&& 0xFF000000 ≠ 0x00000000 ∧ w &&& 0xFFE00000 ≠ 0x01000000 ∧ w &&& 0xFFE00000 ≠ 0x01200000 ∧
      w &&& 0xFFE00000 ≠ 0x01400000 ∧ w &&& 0xFFE00000 ≠ 0x01600000 ∧ w &&& 0xFFE00000 ≠ 0x01800000 ∧
      w &&& 0xFF000000 ≠ 0x02000000 ∧ w &&& 0xFF000000 ≠ 0x03000000 ∧ w &&& 0xFF000000 ≠ 0x04000000)

/-- R81, R82, R83: exactly the words with primary_opcode 7 to 15, those with primary_opcode 0 and secondary_opcode 5
to 15, and those with primary_opcode 0, secondary_opcode 1 and compare_mode 5 to 7 decode to INVALID. The compare
modes are the spec's decision D2 (log 7). -/
def Obligations.ExactlyTheUndefinedWordsAreInvalid : Prop :=
  ∀ w : Word, (decode .reference w).isInvalid = true ↔
    7 ≤ w.toNat / 2 ^ 28 ∨
    (w.toNat / 2 ^ 28 = 0 ∧ 5 ≤ w.toNat / 2 ^ 24 % 2 ^ 4) ∨
    (w.toNat / 2 ^ 28 = 0 ∧ w.toNat / 2 ^ 24 % 2 ^ 4 = 1 ∧ 5 ≤ w.toNat / 2 ^ 21 % 2 ^ 3)

/-- R77, R79: the three opcode tables are fields of the configuration, and under every legal tables a word is an
operation exactly when its fields hold that operation's codes, and INVALID when they hold no defined code. The
reference tables number each list from 0 in the source's order: the spec's decision D1 (log 1). That legal tables give
each name a code of its own is DEDUCED (log 1). -/
def Obligations.OpcodeTablesSelectTheOperations : Prop :=
  Config.reference.opcodes = OpcodeTables.reference ∧ OpcodeTables.reference.Legal ∧
  OpcodeTables.reference.primary = ⟨1, 2, 3, 4, 5, 6⟩ ∧ OpcodeTables.reference.secondary = ⟨0, 1, 2, 3, 4⟩ ∧
  OpcodeTables.reference.mode = ⟨0, 1, 2, 3, 4⟩ ∧
  ∀ (c : OpcodeTables) (w : Word), c.Legal →
    ((fields w).primary = c.primary.add ↔ ∃ a b, decode c w = .add a b) ∧
    ((fields w).primary = c.primary.sub ↔ ∃ a b, decode c w = .sub a b) ∧
    ((fields w).primary = c.primary.mult ↔ ∃ a b, decode c w = .mult a b) ∧
    ((fields w).primary = c.primary.div ↔ ∃ a b, decode c w = .div a b) ∧
    ((fields w).primary = c.primary.output ↔ ∃ p b, decode c w = .output p b) ∧
    ((fields w).primary = c.primary.select ↔ ∃ a b, decode c w = .select a b) ∧
    ((fields w).primary = 0 ∧ (fields w).secondary = c.secondary.noop ↔ ∃ m t i src, decode c w = .noop m t i src) ∧
    ((fields w).primary = 0 ∧ (fields w).secondary = c.secondary.compareZero ∧ (fields w).mode = c.mode.lt ↔
      ∃ t i src, decode c w = .compareZeroLt t i src) ∧
    ((fields w).primary = 0 ∧ (fields w).secondary = c.secondary.compareZero ∧ (fields w).mode = c.mode.le ↔
      ∃ t i src, decode c w = .compareZeroLe t i src) ∧
    ((fields w).primary = 0 ∧ (fields w).secondary = c.secondary.compareZero ∧ (fields w).mode = c.mode.eq ↔
      ∃ t i src, decode c w = .compareZeroEq t i src) ∧
    ((fields w).primary = 0 ∧ (fields w).secondary = c.secondary.compareZero ∧ (fields w).mode = c.mode.ge ↔
      ∃ t i src, decode c w = .compareZeroGe t i src) ∧
    ((fields w).primary = 0 ∧ (fields w).secondary = c.secondary.compareZero ∧ (fields w).mode = c.mode.gt ↔
      ∃ t i src, decode c w = .compareZeroGt t i src) ∧
    ((fields w).primary = 0 ∧ (fields w).secondary = c.secondary.sqrt ↔ ∃ m t i src, decode c w = .sqrt m t i src) ∧
    ((fields w).primary = 0 ∧ (fields w).secondary = c.secondary.copy ↔ ∃ m t i src, decode c w = .copy m t i src) ∧
    ((fields w).primary = 0 ∧ (fields w).secondary = c.secondary.readInput ↔
      ∃ m t i p, decode c w = .readInput m t i p) ∧
    ((decode c w).isInvalid = true ↔
      ((fields w).primary ≠ 0 ∧ (fields w).primary ∉ c.primary.codes) ∨
      ((fields w).primary = 0 ∧ (fields w).secondary ∉ c.secondary.codes) ∨
      ((fields w).primary = 0 ∧ (fields w).secondary = c.secondary.compareZero ∧ (fields w).mode ∉ c.mode.codes))

/-- Decoding the encoding of any well-formed instruction gives it back, every operand at every value, under every
legal opcode tables (30_encoding.md R75, R77, R78, R80). -/
def Obligations.DecodeOfEncodeIsTheInstruction : Prop :=
  ∀ (c : OpcodeTables) (i : Instr), c.Legal → i.wellFormed c = true → decode c (encode c i) = i

/-- Under any opcode tables every word decodes to a well-formed instruction that encodes to the word: decode is total and
drops no bit (30_encoding.md R75, R80, R85). -/
def Obligations.EveryWordIsTheEncodingOfItsDecoding : Prop :=
  ∀ (c : OpcodeTables) (w : Word), (decode c w).wellFormed c = true ∧ encode c (decode c w) = w

/-- R85: any value is accepted in the ignored bits, the decoded record keeps them, and the operation is the same for
every value. That bit20 is ignored is the spec's decision D18 (log 14). -/
def Obligations.IgnoredBitsAreKeptAndDoNotMatter : Prop :=
  EncodesS 0x00000000 .noop ∧ EncodesS 0x02000000 .sqrt ∧ EncodesS 0x03000000 .copy ∧ EncodesS 0x04000000 .readInput ∧
  EncodesCompare 0x01000000 .compareZeroLt ∧ EncodesCompare 0x01200000 .compareZeroLe ∧
  EncodesCompare 0x01400000 .compareZeroEq ∧ EncodesCompare 0x01600000 .compareZeroGe ∧
  EncodesCompare 0x01800000 .compareZeroGt ∧
  ∀ (m m' : BitVec 3) (t t' : BitVec 1) (i i' : BitVec 6) (src src' : Addr) (s : State),
    exec (.noop m t i src) s = exec (.noop m' t' i' src') s ∧
    exec (.sqrt m t i src) s = exec (.sqrt m' t' i' src) s ∧
    exec (.copy m t i src) s = exec (.copy m' t' i' src) s ∧
    exec (.readInput m t i src) s = exec (.readInput m' t' i' src) s ∧
    exec (.compareZeroLt t i src) s = exec (.compareZeroLt t' i' src) s ∧
    exec (.compareZeroLe t i src) s = exec (.compareZeroLe t' i' src) s ∧
    exec (.compareZeroEq t i src) s = exec (.compareZeroEq t' i' src) s ∧
    exec (.compareZeroGe t i src) s = exec (.compareZeroGe t' i' src) s ∧
    exec (.compareZeroGt t i src) s = exec (.compareZeroGt t' i' src) s

/-! ## The binary64 primitives (40_dform_arithmetic.md, 42_sform.md R133) -/

/-- R101, R105: for finite operands and an operation that is not invalid, each of the five functions delivers the
exact real result rounded with roundTiesToEven. Values are counted in units of `2^-1074`, so a product is counted
in `2^-2148` and a quotient is a ratio of naturals. The rounding is the spec's decision D6, from general knowledge
(log 5). -/
def Obligations.ArithmeticIsCorrectlyRounded : Prop :=
  (∀ a b : F64, a.isFinite = true → b.isFinite = true →
    (∃ r, F64.fadd a b = .value r ∧ F64.RoundsTo r (a.signedUnits + b.signedUnits) 1) ∧
    (∃ r, F64.fsub a b = .value r ∧ F64.RoundsTo r (a.signedUnits - b.signedUnits) 1) ∧
    (∃ r, F64.fmul a b = .value r ∧ F64.RoundsTo r (a.signedUnits * b.signedUnits) F64.unitsPerOne) ∧
    (b.isZero = false → ∃ r, F64.fdiv a b = .value r ∧
      F64.RoundsTo r ((if b.sign then -1 else 1) * (a.signedUnits * F64.unitsPerOne)) b.units)) ∧
  ∀ v : F64, v.isFinite = true → v.sign = false → v.isZero = false →
    ∃ r, F64.fsqrt v = .value r ∧ F64.RootRoundsTo r (v.units * F64.unitsPerOne)

/-- R102: the result is a NaN exactly where an operand is a NaN or the operation is invalid, and the NaN patterns
that can be drawn are all the NaN patterns. The draw is the spec's decision D7 (log 6). -/
def Obligations.NaNResultsAreExactlyTheInvalidOnes : Prop :=
  (∀ a b : F64, F64.fadd a b = .nan ↔
    a.isNaN = true ∨ b.isNaN = true ∨ (a.isInf = true ∧ b.isInf = true ∧ a.sign ≠ b.sign)) ∧
  (∀ a b : F64, F64.fsub a b = .nan ↔
    a.isNaN = true ∨ b.isNaN = true ∨ (a.isInf = true ∧ b.isInf = true ∧ a.sign = b.sign)) ∧
  (∀ a b : F64, F64.fmul a b = .nan ↔
    a.isNaN = true ∨ b.isNaN = true ∨ (a.isInf = true ∧ b.isZero = true) ∨ (a.isZero = true ∧ b.isInf = true)) ∧
  (∀ a b : F64, F64.fdiv a b = .nan ↔
    a.isNaN = true ∨ b.isNaN = true ∨ (a.isInf = true ∧ b.isInf = true) ∨ (a.isZero = true ∧ b.isZero = true)) ∧
  (∀ v : F64, F64.fsqrt v = .nan ↔ v.isNaN = true ∨ F64.flt0 v = true) ∧
  ∀ v : F64, v.isNaN = true ↔ ∃ sign frac, F64.nanPattern sign frac = v

/-- R103: the signs of zero and of exact results (marked in the spec "from general knowledge"; log 5). -/
def Obligations.SignsOfZeroResults : Prop :=
  (∀ a b : F64, a.isFinite = true → b.isFinite = true → a.sign ≠ b.sign → a.signedUnits + b.signedUnits = 0 →
    F64.fadd a b = .value F64.posZero) ∧
  (∀ x : F64, x.isFinite = true → F64.fsub x x = .value F64.posZero) ∧
  F64.fadd F64.posZero F64.posZero = .value F64.posZero ∧ F64.fadd F64.negZero F64.negZero = .value F64.negZero ∧
  F64.fadd F64.posZero F64.negZero = .value F64.posZero ∧
  F64.fsub F64.posZero F64.posZero = .value F64.posZero ∧ F64.fsub F64.negZero F64.negZero = .value F64.posZero ∧
  F64.fsub F64.negZero F64.posZero = .value F64.negZero ∧ F64.fsub F64.posZero F64.negZero = .value F64.posZero ∧
  (∀ a b r : F64, F64.fmul a b = .value r → r.sign = (a.sign != b.sign)) ∧
  (∀ a b r : F64, F64.fdiv a b = .value r → r.sign = (a.sign != b.sign)) ∧
  F64.fsqrt F64.posZero = .value F64.posZero ∧ F64.fsqrt F64.negZero = .value F64.negZero ∧
  F64.fsqrt (F64.inf false) = .value (F64.inf false) ∧
  (∀ a b : F64, a.isNaN = false → b.isNaN = false → F64.fsub a b = F64.fadd a b.negate)

/-- R104: arithmetic on infinities; DIV never divides by a zero, and a finite sum or quotient may still overflow
(marked in the spec "from general knowledge"; log 5). -/
def Obligations.ArithmeticOnInfinities : Prop :=
  (∀ a b : F64, a.isInf = true → b.isFinite = true →
    F64.fadd a b = .value a ∧ F64.fadd b a = .value a ∧ F64.fsub a b = .value a ∧ F64.fsub b a = .value a.negate ∧
    (b.isZero = false → F64.fmul a b = .value (F64.inf (a.sign != b.sign)) ∧
      F64.fmul b a = .value (F64.inf (a.sign != b.sign)) ∧ F64.fdiv a b = .value (F64.inf (a.sign != b.sign))) ∧
    F64.fdiv b a = .value (F64.zero (a.sign != b.sign))) ∧
  (∀ a b : F64, a.isInf = true → b.isInf = true → F64.fmul a b = .value (F64.inf (a.sign != b.sign)) ∧
    (a.sign = b.sign → F64.fadd a b = .value a)) ∧
  (∀ (a b : Addr) (s : State), (s.mem.read b.toNat).isZero = true → exec (.div a b) s = .next s.advance) ∧
  F64.fadd 0x7FE1CCF385EBC8A0 0x7FE1CCF385EBC8A0 = .value (F64.inf false) ∧
  F64.fdiv 0x3FF0000000000000 0x0000000000000001 = .value (F64.inf false)

/-- R133: the truth table of the five comparisons with zero; every pattern falls in one of its rows; equal to zero, the
test of the DIV guard too, are exactly the two zeros. The rows of the NaNs and of -0.0 are the spec's decision D15
(log 13). -/
def Obligations.ComparisonWithZeroTruthTable : Prop :=
  (∀ v : F64, v.feq0 = true ↔ v = F64.posZero ∨ v = F64.negZero) ∧
  ∀ v : F64,
    (v.isNaN = true → v.flt0 = false ∧ v.fle0 = false ∧ v.feq0 = false ∧ v.fge0 = false ∧ v.fgt0 = false) ∧
    (v = F64.posZero ∨ v = F64.negZero →
      v.flt0 = false ∧ v.fle0 = true ∧ v.feq0 = true ∧ v.fge0 = true ∧ v.fgt0 = false) ∧
    (v.isNaN = false → v ≠ F64.posZero → v ≠ F64.negZero → v.sign = true →
      v.flt0 = true ∧ v.fle0 = true ∧ v.feq0 = false ∧ v.fge0 = false ∧ v.fgt0 = false) ∧
    (v.isNaN = false → v ≠ F64.posZero → v ≠ F64.negZero → v.sign = false →
      v.flt0 = false ∧ v.fle0 = false ∧ v.feq0 = false ∧ v.fge0 = true ∧ v.fgt0 = true)

/-! ## The instructions: completion, result and frame -/

/-- R110: ADD. Its words; the own slot receives the sum of the two slots as they were, and nothing else changes but
pc; its corner cases and its example. -/
def Obligations.AddWritesTheSumToItsOwnSlot : Prop :=
  EncodesD 0x10000000 .add ∧
  (∀ (a b : Addr) (s : State), s.CanWriteSlot → CompletesWith (.add a b) s fun t =>
    ResultWritten s t (F64.fadd (s.mem.read a.toNat) (s.mem.read b.toNat))) ∧
  (∀ x y : F64, x.isNaN = true ∨ y.isNaN = true → F64.fadd x y = .nan) ∧
  F64.fadd (F64.inf false) (F64.inf true) = .nan ∧
  F64.fadd 0x7FE1CCF385EBC8A0 0x7FE1CCF385EBC8A0 = .value (F64.inf false) ∧
  F64.fadd 0x3FF0000000000000 0x4000000000000000 = .value 0x4008000000000000

/-- R111: SUB. Its words; the own slot receives `Mem[operand_a] - Mem[operand_b]`; its corner cases and its
example. -/
def Obligations.SubWritesTheDifferenceToItsOwnSlot : Prop :=
  EncodesD 0x20000000 .sub ∧
  (∀ (a b : Addr) (s : State), s.CanWriteSlot → CompletesWith (.sub a b) s fun t =>
    ResultWritten s t (F64.fsub (s.mem.read a.toNat) (s.mem.read b.toNat))) ∧
  (∀ x : F64, x.isFinite = true → F64.fsub x x = .value F64.posZero) ∧
  (∀ x : F64, x.isFinite = false → F64.fsub x x = .nan) ∧
  (∀ x : F64, x.isNaN = false → x.isZero = false → F64.fsub F64.posZero x = .value x.negate) ∧
  F64.fsub F64.posZero F64.posZero = .value F64.posZero ∧ F64.fsub F64.posZero F64.negZero = .value F64.posZero ∧
  F64.fsub 0x4008000000000000 0x4014000000000000 = .value 0xC000000000000000

/-- R112: MULT. Its words; the own slot receives the product; its corner cases and its example. -/
def Obligations.MultWritesTheProductToItsOwnSlot : Prop :=
  EncodesD 0x30000000 .mult ∧
  (∀ (a b : Addr) (s : State), s.CanWriteSlot → CompletesWith (.mult a b) s fun t =>
    ResultWritten s t (F64.fmul (s.mem.read a.toNat) (s.mem.read b.toNat))) ∧
  (∀ x y : F64, x.isZero = true → y.isInf = true → F64.fmul x y = .nan ∧ F64.fmul y x = .nan) ∧
  (∀ x y : F64, x.isZero = true → y.isFinite = true → F64.fmul x y = .value (F64.zero (x.sign != y.sign)) ∧
    F64.fmul y x = .value (F64.zero (x.sign != y.sign))) ∧
  F64.fmul 0x6974E718D7D7625A 0x6974E718D7D7625A = .value (F64.inf false) ∧
  F64.fmul 0x0010000000000000 0x3FE0000000000000 = .value 0x0008000000000000 ∧
  F64.fmul 0x4008000000000000 0x4010000000000000 = .value 0x4028000000000000

/-- R113: DIV. Its words; where the divisor compares equal to zero, nothing changes but pc, whatever the dividend;
elsewhere the own slot receives the quotient; its example. -/
def Obligations.DivWritesTheQuotientUnlessTheDivisorIsZero : Prop :=
  EncodesD 0x40000000 .div ∧
  (∀ (a b : Addr) (s : State), (s.mem.read b.toNat).feq0 = true → CompletesWith (.div a b) s (OnlyAdvanced s)) ∧
  (∀ (a b : Addr) (s : State), (s.mem.read b.toNat).feq0 = false → s.CanWriteSlot → CompletesWith (.div a b) s fun t =>
    ResultWritten s t (F64.fdiv (s.mem.read a.toNat) (s.mem.read b.toNat))) ∧
  F64.fdiv 0x3FF0000000000000 0x4010000000000000 = .value 0x3FD0000000000000

/-- R120: OUTPUT. Its words; the output port operand_a receives the bits of the slot operand_b, and nothing else
changes but pc. -/
def Obligations.OutputCopiesASlotToAnOutputPort : Prop :=
  EncodesD 0x50000000 .output ∧
  ∀ (p b : Addr) (s : State), s.outPort.wf → CompletesWith (.output p b) s fun t =>
    PortWritten s t p.toNat (s.mem.read b.toNat)

/-- R123: SELECT. Its words; the own slot receives the bits of operand_a when the flag is true and of operand_b when
it is false, and nothing else changes but pc. -/
def Obligations.SelectChoosesByTheStatusFlag : Prop :=
  EncodesD 0x60000000 .select ∧
  ∀ (a b : Addr) (s : State), s.CanWriteSlot → CompletesWith (.select a b) s fun t =>
    SlotWritten s t (if s.status then s.mem.read a.toNat else s.mem.read b.toNat) ∧ t.draws = s.draws

/-- R130: NOOP. Its words, the low 24 bits being ignored; nothing changes but pc; and no line that is executed, be it
that of the NOOP or another, changes the slot of a NOOP line or the program, so the slot keeps its constant. -/
def Obligations.NoopOnlyAdvances : Prop :=
  EncodesS 0x00000000 .noop ∧
  (∀ (m : BitVec 3) (t : BitVec 1) (i : BitVec 6) (src : Addr) (s : State),
    CompletesWith (.noop m t i src) s (OnlyAdvanced s)) ∧
  ∀ (s u : State) (w line : Word) (a : Nat), s.mem.wf → s.phase = .ready → s.imem[s.pc]? = some w → step s = .next u →
    s.imem[a]? = some line → (∃ m t i src, decode s.cfg.opcodes line = .noop m t i src) →
    u.mem.read a = s.mem.read a ∧ u.imem = s.imem

/-- R132, R134 to R138: the five COMPARE_ZERO. Their words; the flag receives the comparison of the slot with zero,
always, and nothing else changes but pc; no other instruction writes the flag; the rules' examples. -/
def Obligations.CompareZeroWritesTheStatusFlag : Prop :=
  EncodesCompare 0x01000000 .compareZeroLt ∧ EncodesCompare 0x01200000 .compareZeroLe ∧
  EncodesCompare 0x01400000 .compareZeroEq ∧ EncodesCompare 0x01600000 .compareZeroGe ∧
  EncodesCompare 0x01800000 .compareZeroGt ∧
  (∀ (t : BitVec 1) (i : BitVec 6) (src : Addr) (s : State),
    CompletesWith (.compareZeroLt t i src) s (StatusWritten s · (F64.flt0 (s.mem.read src.toNat))) ∧
    CompletesWith (.compareZeroLe t i src) s (StatusWritten s · (F64.fle0 (s.mem.read src.toNat))) ∧
    CompletesWith (.compareZeroEq t i src) s (StatusWritten s · (F64.feq0 (s.mem.read src.toNat))) ∧
    CompletesWith (.compareZeroGe t i src) s (StatusWritten s · (F64.fge0 (s.mem.read src.toNat))) ∧
    CompletesWith (.compareZeroGt t i src) s (StatusWritten s · (F64.fgt0 (s.mem.read src.toNat)))) ∧
  (∀ (i : Instr) (s u : State), writesStatus i = false → exec i s = .next u → u.status = s.status) ∧
  F64.flt0 0xC022000000000000 = true ∧ F64.flt0 0x4030000000000000 = false ∧ F64.flt0 F64.negZero = false ∧
  F64.fle0 F64.negZero = true ∧ F64.feq0 0x0000000000000001 = false ∧
  (∀ v : F64, v.isNaN = true → F64.fge0 v = false) ∧ F64.fgt0 (F64.inf false) = true

/-- R139: SQRT. Its words; the own slot receives the square root, a NaN included, and nothing else changes but pc;
its corner cases and its examples. -/
def Obligations.SqrtWritesTheRootToItsOwnSlot : Prop :=
  EncodesS 0x02000000 .sqrt ∧
  (∀ (m : BitVec 3) (t : BitVec 1) (i : BitVec 6) (src : Addr) (s : State), s.CanWriteSlot →
    CompletesWith (.sqrt m t i src) s fun u => ResultWritten s u (F64.fsqrt (s.mem.read src.toNat))) ∧
  (∀ v : F64, v.flt0 = true ∨ v.isNaN = true → F64.fsqrt v = .nan) ∧
  F64.fsqrt F64.negZero = .value F64.negZero ∧ F64.fsqrt F64.posZero = .value F64.posZero ∧
  F64.fsqrt (F64.inf false) = .value (F64.inf false) ∧
  F64.fsqrt 0x4022000000000000 = .value 0x4008000000000000 ∧
  F64.fsqrt 0x4000000000000000 = .value 0x3FF6A09E667F3BCD

/-- R141: COPY. Its words; the own slot receives the bits of the slot source, and nothing else changes but pc. -/
def Obligations.CopyMovesASlotToItsOwnSlot : Prop :=
  EncodesS 0x03000000 .copy ∧
  ∀ (m : BitVec 3) (t : BitVec 1) (i : BitVec 6) (src : Addr) (s : State), s.CanWriteSlot →
    CompletesWith (.copy m t i src) s fun u => SlotWritten s u (s.mem.read src.toNat) ∧ u.draws = s.draws

/-- R140: READ_INPUT. Its words; the own slot receives the bits of the input port source, which is not consumed, and
nothing else changes but pc; in the reset state every port reads `+0.0`. -/
def Obligations.ReadInputMovesAPortToItsOwnSlot : Prop :=
  EncodesS 0x04000000 .readInput ∧
  ∀ (m : BitVec 3) (t : BitVec 1) (i : BitVec 6) (p : Addr) (s : State), s.CanWriteSlot →
    (CompletesWith (.readInput m t i p) s fun u => SlotWritten s u (s.inPort.read p.toNat) ∧ u.draws = s.draws) ∧
    State.reset.inPort.read p.toNat = F64.posZero

/-- R142: INVALID. Under INVALID_POLICY = refuse the seven INVALID rows are refused when executed, load rejects an
image that holds one, and no line of a state that meets the invariant is one; under noop they execute exactly as
NOOP: no read, no write, pc advances. The policy is the spec's decision D8 (log 7). The seven rows are invalidPrimary7,
invalidPrimary8to15, invalidSecondary5, invalidSecondary6to7, invalidSecondary8to15, invalidCompareMode5 and
invalidCompareMode6to7. -/
def Obligations.InvalidLinesAreRefusedOrExecuteAsNoop : Prop :=
  (∀ (i : Instr) (s : State), i.isInvalid = true → s.cfg.invalidPolicy = .refuse →
    exec i s = .refused .invalidLine) ∧
  (∀ (i : Instr) (s : State) (m : BitVec 3) (t : BitVec 1) (im : BitVec 6) (src : Addr), i.isInvalid = true →
    s.cfg.invalidPolicy = .noop →
    CompletesWith i s (OnlyAdvanced s) ∧ exec i s = exec (.noop m t im src) s) ∧
  (∀ (s : State) (image : List Byte) (k : Nat), s.cfg.invalidPolicy = .refuse → image.length / 12 ≤ s.cfg.memCapacity →
    k < image.length / 12 → (decode s.cfg.opcodes (recordWord s.cfg.imageEndian image k)).isInvalid = true →
    s.load (.bytes image) = s.reply (.loadError .invalidEncoding)) ∧
  ∀ (s : State) (w : Word), s.Inv → s.cfg.invalidPolicy = .refuse → s.fetch = some w →
    (decode s.cfg.opcodes w).isInvalid = false

/-! ## One step -/

/-- When the line at pc holds a word, in phase ready, the step is exec of its decoding at that state, under the machine's
opcode tables, and, where these are legal, of the instruction that the word encodes; the step adds nothing around exec
(43_sequencer_and_host.md R150). -/
def Obligations.StepRunsTheDecodedInstruction : Prop :=
  (∀ (s : State) (w : Word), s.phase = .ready → s.imem[s.pc]? = some w → step s = exec (decode s.cfg.opcodes w) s) ∧
  ∀ (s : State) (i : Instr), s.cfg.opcodes.Legal → i.wellFormed s.cfg.opcodes = true → s.phase = .ready →
    s.imem[s.pc]? = some (encode s.cfg.opcodes i) → step s = exec i s

/-- R150: the step of a line always completes, and changes at most one of `Mem[slot]`, `OutPort[operand_a]` and
`status`, plus pc. The `draws` count is the model's own. -/
def Obligations.StepIsAtomicAndTotal : Prop :=
  ∀ (s : State) (w : Word), s.Inv → s.phase = .ready → s.imem[s.pc]? = some w →
    ∃ t, step s = .next t ∧ step s = exec (decode s.cfg.opcodes w) s ∧ Kept s t ∧
      (((∀ a, a ≠ s.pc → t.mem.read a = s.mem.read a) ∧ t.outPort = s.outPort ∧ t.status = s.status) ∨
       ((∀ p, writesPort (decode s.cfg.opcodes w) ≠ some p → t.outPort.read p = s.outPort.read p) ∧ t.mem = s.mem ∧
          t.status = s.status) ∨
       (t.mem = s.mem ∧ t.outPort = s.outPort))

/-- Whole-machine frame (43_sequencer_and_host.md R154, R155): every instruction advances pc by exactly 1 and leaves
the phase, the program, the input ports and the host's queues alone; only COMPARE_ZERO changes the flag; no slot
but the own one of a memory-writing instruction, and no output port but the one OUTPUT names, changes. -/
def Obligations.InstructionsWriteOnlyWhatTheirRowSays : Prop :=
  ∀ (i : Instr) (s t : State), s.mem.wf → s.outPort.wf → exec i s = .next t →
    Kept s t ∧
    (writesStatus i = false → t.status = s.status) ∧
    (∀ a, (writesSlot i = false ∨ a ≠ s.pc) → t.mem.read a = s.mem.read a) ∧
    (∀ p, writesPort i ≠ some p → t.outPort.read p = s.outPort.read p)

/-- The status flag reaches only SELECT (10_state.md R24): any other instruction answers the same next state
whatever the flag was, but for the flag itself where it does not write it. A NaN drawn is the same in both, the model's
counter being the same (log 6). -/
def Obligations.OnlySelectReadsTheStatusFlag : Prop :=
  ∀ (i : Instr) (s t : State) (b : Bool), readsStatus i = false → exec i s = .next t →
    exec i { s with status := b } = .next { t with status := if writesStatus i then t.status else b }

/-- No instruction reads an output port (10_state.md R28): whatever the output ports held, everything but them is
the same after. A NaN drawn is the same in both, the model's counter being the same (log 6). -/
def Obligations.NoInstructionReadsAnOutputPort : Prop :=
  ∀ (i : Instr) (s t : State) (o : Memory), exec i s = .next t →
    ∃ o', exec i { s with outPort := o } = .next { t with outPort := o' }

/-- Both port arrays keep their values until written (10_state.md R27, R28, R29): in the reset state every entry is
`+0.0`; a step changes an input port only where it is create or write_input to that port, and an output port only where
it is create or an OUTPUT to that port. A load that begins with create, under RELOAD_POLICY = fresh, counts as create
(the spec's decision D11, log 10); that the host's operations wait in a queue is the model's choice (log 16). -/
def Obligations.PortsKeepTheirValuesUntilWritten : Prop :=
  (∀ p, State.reset.inPort.read p = F64.posZero ∧ State.reset.outPort.read p = F64.posZero) ∧
  ∀ (s t : State) (p : Nat), step s = .next t →
    (s.inPort.wf → ¬ s.mayWriteInPort p → t.inPort.read p = s.inPort.read p) ∧
    (s.outPort.wf → ¬ s.mayWriteOutPort p → t.outPort.read p = s.outPort.read p)

/-- R42: every address a field can form names a slot and a port that exist, and the own slot of a line of a program
exists (marked in the spec "derived: from 00_scope.md rules R5, R6, R7"). -/
def Obligations.EveryFormedAddressExists : Prop :=
  (∀ (c : Config) (a : Addr), addrIndex a < c.memCapacity ∧ addrIndex a < Config.portCount) ∧
  ∀ (s : State) (w : Word), s.Inv → s.fetch = some w → s.pc < s.cfg.memCapacity

/-! ## Reset and invariant -/

/-- R31: the value of every piece of state after create. The flag is the spec's decision D5 (log 4), pc "this spec's
own" (log 11). -/
def Obligations.ResetIsTheStateAfterCreate : Prop :=
  State.reset.phase = .created ∧ State.reset.n = 0 ∧ State.reset.imem = [] ∧
  (∀ a, State.reset.mem.read a = F64.posZero) ∧ (∀ p, State.reset.inPort.read p = F64.posZero) ∧
  (∀ p, State.reset.outPort.read p = F64.posZero) ∧ State.reset.status = false ∧ State.reset.pc = 0

/-- The invariant holds after reset. -/
def Obligations.ResetMeetsTheInvariant : Prop := State.reset.Inv

/-- Every step, of the engine or of the host, keeps the invariant: the opcode tables are legal (log 1), the program fits
and holds no undefined word, pc is within it, the arrays are canonical and within bounds, and no slot at or above N
holds anything but `+0.0` (10_state.md R22, R23; 20_memory.md R42, R44; 60_exceptions.md R186). -/
def Obligations.EveryStepKeepsTheInvariant : Prop :=
  ∀ s t : State, s.Inv → step s = .next t → t.Inv

/-- No step of a state that meets the invariant faults, and no step that executes a line is refused
(60_exceptions.md R180). -/
def Obligations.NoStepFaults : Prop :=
  ∀ s : State, s.Inv → (∀ r, step s ≠ .fault r) ∧ (s.cycleInProgress → ∀ r, step s ≠ .refused r)

/-- No step changes the machine's parameters (00_scope.md section 4; the model's choice of log 18). -/
def Obligations.NoStepChangesTheConfiguration : Prop :=
  ∀ s t : State, step s = .next t → t.cfg = s.cfg

/-! ## The cycle -/

/-- R152: run_cycle sets pc to 0 and executes every line once, in line order, each in the state the one before it
left; the cycle of an N-line program is exactly N steps after the one that begins it, never fails, and ends with
pc = N. With N = 0 it does nothing. That a step of its own begins the cycle, that the host's call waits in a queue, and
that pc is N between cycles are the model's choices (logs 11, 16). -/
def Obligations.RunCycleExecutesEveryLineOnceInOrder : Prop :=
  ∀ (s : State) (rest : List HostOp), s.Inv → s.phase = .ready → s.pc = s.n → s.pending = .runCycle :: rest →
    ∃ t, Host.Core.run Sys2Proof.core (s.n + 1) s = .next t ∧
      execInOrder s.imem { s with pc := 0, pending := rest } = .next t ∧
      t.pc = t.n ∧ t.imem = s.imem ∧ t.phase = .ready ∧ t.pending = rest ∧
      (s.n = 0 → t = { s with pc := 0, pending := rest })

/-- A slot that is the own slot of no memory-writing line keeps its value through a whole cycle: the slots of NOOP,
COMPARE_ZERO and OUTPUT lines keep their constants, and the slots at or above N stay as they are
(20_memory.md R44, R45). -/
def Obligations.CycleKeepsTheSlotsOfNonWritingLines : Prop :=
  ∀ (s t : State) (rest : List HostOp) (a : Nat), s.Inv → s.phase = .ready → s.pc = s.n →
    s.pending = .runCycle :: rest → Host.Core.run Sys2Proof.core (s.n + 1) s = .next t →
    (∀ w, s.imem[a]? = some w → writesSlot (decode s.cfg.opcodes w) = false) → t.mem.read a = s.mem.read a

/-- A cycle starts from exactly the state the one before it left; only pc is set to 0 (10_state.md R34; how the host
asks for it, and that pc is N between cycles, are the model's choice of logs 11 and 16). -/
def Obligations.CycleStartsFromTheStateLeft : Prop :=
  ∀ (s : State) (rest : List HostOp), s.phase = .ready → s.pc = s.n → s.pending = .runCycle :: rest →
    step s = .next { s with pc := 0, pending := rest }

/-! ## Host operations (43_sequencer_and_host.md section 6) -/

/-- R161: create yields the reset state of R31, whatever the phase, and cannot fail between cycles. That it
replaces the instance in view is the model's choice (log 19); pc = 0 is "this spec's own" (log 11); the flag is the
spec's decision D5, and under STATUS_RESET = draw a free value (log 4). -/
def Obligations.CreateYieldsTheResetState : Prop :=
  ∀ s : State, s.fetch = none → ∃ t, hostOp .create s = .next t ∧
    t.phase = .created ∧ t.n = 0 ∧ (∀ a, t.mem.read a = F64.posZero) ∧ (∀ p, t.inPort.read p = F64.posZero) ∧
    (∀ p, t.outPort.read p = F64.posZero) ∧ t.pc = 0 ∧
    (s.cfg.statusReset = .cleared → t.status = false)

/-- R32: after a successful load the phase is ready, N is floor(L / 12), line i holds the word and slot i the constant
of record i, every other slot `+0.0`; ports and flag are as they were; and the host is told Ok
(43_sequencer_and_host.md R162, R163), which the model holds as a reply (log 16). -/
def Obligations.LoadInstallsTheImage : Prop :=
  ∀ (s : State) (image : List Byte), s.Inv → s.phase = .created → image.length / 12 ≤ s.cfg.memCapacity →
    (s.cfg.invalidPolicy = .refuse → ∀ k, k < image.length / 12 →
      (decode s.cfg.opcodes (recordWord s.cfg.imageEndian image k)).isInvalid = false) →
    ∃ t, hostOp (.load (.bytes image)) s = .next t ∧ t.phase = .ready ∧ t.n = image.length / 12 ∧
      (∀ k, k < t.n → t.imem[k]? = some (recordWord s.cfg.imageEndian image k) ∧
        t.mem.read k = recordConstant s.cfg.imageEndian image k) ∧
      (∀ a, t.n ≤ a → t.mem.read a = F64.posZero) ∧
      t.status = s.status ∧ t.inPort = s.inPort ∧ t.outPort = s.outPort ∧
      t.replies = s.replies ++ [.loadOk]

/-- R52, R54: where the fields of record i lie, in even and in odd records, and the byte order inside a field, little
and big. The offsets are marked in the spec "derived"; the byte order is its decision D3 (log 2). -/
def Obligations.RecordFieldsAlternateByParity : Prop :=
  ∀ (image : List Byte) (i : Nat), 12 * i + 12 ≤ image.length →
    let wordOff := if i % 2 = 0 then 12 * i + 8 else 12 * i
    let constOff := if i % 2 = 0 then 12 * i else 12 * i + 4
    let byte := fun k => (image.getD k 0).toNat
    (recordWord .little image i).toNat =
      byte wordOff + 2 ^ 8 * byte (wordOff + 1) + 2 ^ 16 * byte (wordOff + 2) + 2 ^ 24 * byte (wordOff + 3) ∧
    (recordWord .big image i).toNat =
      byte (wordOff + 3) + 2 ^ 8 * byte (wordOff + 2) + 2 ^ 16 * byte (wordOff + 1) + 2 ^ 24 * byte wordOff ∧
    (recordConstant .little image i).toNat =
      byte constOff + 2 ^ 8 * byte (constOff + 1) + 2 ^ 16 * byte (constOff + 2) + 2 ^ 24 * byte (constOff + 3) +
      2 ^ 32 * byte (constOff + 4) + 2 ^ 40 * byte (constOff + 5) + 2 ^ 48 * byte (constOff + 6) +
      2 ^ 56 * byte (constOff + 7) ∧
    (recordConstant .big image i).toNat =
      byte (constOff + 7) + 2 ^ 8 * byte (constOff + 6) + 2 ^ 16 * byte (constOff + 5) + 2 ^ 24 * byte (constOff + 4) +
      2 ^ 32 * byte (constOff + 3) + 2 ^ 40 * byte (constOff + 2) + 2 ^ 48 * byte (constOff + 1) +
      2 ^ 56 * byte constOff

/-- R55: the bytes of a partial trailing record are ignored, whatever they are. -/
def Obligations.PartialRecordIsDropped : Prop :=
  ∀ (s : State) (image tail : List Byte), image.length % 12 = 0 → tail.length < 12 →
    s.load (.bytes (image ++ tail)) = s.load (.bytes image) ∧ recordCount (image ++ tail) = image.length / 12

/-- R184, R185, R186: the error outcomes of load. In each the host is told the error and no state of the instance
changes; TooLong is reported before InvalidEncoding, and under INVALID_POLICY = noop InvalidEncoding does not
exist. The order of the checks is the spec's decision D9 (log 8), the policy its decision D8 (log 7). -/
def Obligations.LoadErrorsChangeNoState : Prop :=
  ∀ s : State, s.phase = .created →
    hostOp (.load .unreadable) s = .next { s with replies := s.replies ++ [.loadError .unreadable] } ∧
    (∀ image : List Byte, s.cfg.memCapacity < image.length / 12 →
      hostOp (.load (.bytes image)) s = .next { s with replies := s.replies ++ [.loadError .tooLong] }) ∧
    (∀ (image : List Byte) (k : Nat), image.length / 12 ≤ s.cfg.memCapacity → s.cfg.invalidPolicy = .refuse →
      k < image.length / 12 → (decode s.cfg.opcodes (recordWord s.cfg.imageEndian image k)).isInvalid = true →
      hostOp (.load (.bytes image)) s = .next { s with replies := s.replies ++ [.loadError .invalidEncoding] }) ∧
    ∀ image : List Byte, image.length / 12 ≤ s.cfg.memCapacity → s.cfg.invalidPolicy = .noop →
      ∃ t, hostOp (.load (.bytes image)) s = .next t ∧ t.phase = .ready ∧ t.replies = s.replies ++ [.loadOk]

/-- R164: a load in phase ready is refused; under RELOAD_POLICY = fresh it is destroy, create, load as one
operation. The policy is the spec's decision D11 (log 10). -/
def Obligations.SecondLoadIsRefused : Prop :=
  ∀ (s : State) (source : ByteSource), s.phase = .ready → s.fetch = none →
    (s.cfg.reloadPolicy = .refuse → hostOp (.load source) s = .refused .secondLoad) ∧
    (s.cfg.reloadPolicy = .fresh → ∃ d, hostOp .destroy s = .next d ∧ ∃ c, hostOp .create d = .next c ∧
      hostOp (.load source) s = hostOp (.load source) c)

/-- R166: run_cycle in phase created changes nothing and reports nothing, or, under RUN_WHEN_CREATED = error, only tells
the host of an error (the spec's decision D10; logs 9, 16). -/
def Obligations.RunCycleWithoutAProgramDoesNothing : Prop :=
  ∀ s : State, s.phase = .created →
    (s.cfg.runWhenCreated = .noop → hostOp .runCycle s = .next s) ∧
    (s.cfg.runWhenCreated = .error → hostOp .runCycle s = .next { s with replies := s.replies ++ [.runError] })

/-- R167: write_input in phases created and ready, between cycles: below PORT_COUNT one input port receives the value
and nothing else changes; at or above PORT_COUNT the call is refused. PORT_COUNT is the spec's decision D4 (log 3). -/
def Obligations.WriteInputWritesOneInputPort : Prop :=
  ∀ (s : State) (port : Nat) (v : F64), s.phase ≠ .destroyed → s.fetch = none → s.inPort.wf →
    (port < 16384 → ∃ t, hostOp (.writeInput port v) s = .next t ∧ t.inPort.read port = v ∧
      (∀ p, p ≠ port → t.inPort.read p = s.inPort.read p) ∧ t = { s with inPort := t.inPort }) ∧
    (16384 ≤ port → hostOp (.writeInput port v) s = .refused .portOutOfRange)

/-- R168: read_output in phases created and ready, between cycles: below PORT_COUNT the host is returned the bits of
the output port and nothing else changes; at or above PORT_COUNT the call is refused. PORT_COUNT is the spec's
decision D4 (log 3). -/
def Obligations.ReadOutputReturnsTheOutputPort : Prop :=
  ∀ (s : State) (port : Nat), s.phase ≠ .destroyed → s.fetch = none →
    (port < 16384 →
      hostOp (.readOutput port) s = .next { s with replies := s.replies ++ [.output (s.outPort.read port)] }) ∧
    (16384 ≤ port → hostOp (.readOutput port) s = .refused .portOutOfRange)

/-- R170: destroy makes the phase destroyed, after which every operation on the instance is refused; create is not one,
it makes a fresh instance. -/
def Obligations.DestroyEndsTheInstance : Prop :=
  (∀ s : State, s.phase ≠ .destroyed → s.fetch = none → hostOp .destroy s = .next { s with phase := .destroyed }) ∧
  ∀ (s : State) (op : HostOp), s.phase = .destroyed → op ≠ .create → hostOp op s = .refused .instanceDestroyed

/-- The host has no move during a cycle: any operation given then is refused, and a step then is the engine's,
whatever is pending (20_memory.md R66; 60_exceptions.md R191). A NaN drawn is the same in both (log 6). -/
def Obligations.HostHasNoMoveDuringACycle : Prop :=
  ∀ s : State, s.cycleInProgress →
    (∀ op, hostOp op s = .refused .hostDuringCycle) ∧
    ∀ ops t, step s = .next t → step { s with pending := ops } = .next { t with pending := ops }

/-- Between cycles a step takes the oldest pending host operation, and with none pending all state is retained
(60_exceptions.md R198; the model's choice of logs 16 and 23). -/
def Obligations.HostActsBetweenCyclesInOrder : Prop :=
  ∀ s : State, s.fetch = none →
    (s.pending = [] → step s = .next s) ∧
    ∀ op rest, s.pending = op :: rest → step s = hostOp op { s with pending := rest }
end

