-- ==== Sys2Proof/Laws/Decode.lean ====
section
/-! SUPPORT. Laws of the codec: the fields as arithmetic on the number of a word, the fields of an encoded word,
and the word back from its fields. -/

namespace Sys2Proof

/-! ## Fields as arithmetic -/

theorem fields_primary_toNat (w : Word) : (fields w).primary.toNat = w.toNat / 2 ^ 28 := by
  simp [fields, BitVec.extractLsb'_toNat, Nat.shiftRight_eq_div_pow]; omega

theorem fields_operandA_toNat (w : Word) : (fields w).operandA.toNat = w.toNat / 2 ^ 14 % 2 ^ 14 := by
  simp [fields, BitVec.extractLsb'_toNat, Nat.shiftRight_eq_div_pow]

theorem fields_operandB_toNat (w : Word) : (fields w).operandB.toNat = w.toNat % 2 ^ 14 := by
  simp [fields, BitVec.extractLsb'_toNat]

theorem fields_secondary_toNat (w : Word) : (fields w).secondary.toNat = w.toNat / 2 ^ 24 % 2 ^ 4 := by
  simp [fields, BitVec.extractLsb'_toNat, Nat.shiftRight_eq_div_pow]

theorem fields_mode_toNat (w : Word) : (fields w).mode.toNat = w.toNat / 2 ^ 21 % 2 ^ 3 := by
  simp [fields, BitVec.extractLsb'_toNat, Nat.shiftRight_eq_div_pow]

theorem fields_bit20_toNat (w : Word) : (fields w).bit20.toNat = w.toNat / 2 ^ 20 % 2 := by
  simp [fields, BitVec.extractLsb'_toNat, Nat.shiftRight_eq_div_pow]

theorem fields_immediate_toNat (w : Word) : (fields w).immediate.toNat = w.toNat / 2 ^ 14 % 2 ^ 6 := by
  simp [fields, BitVec.extractLsb'_toNat, Nat.shiftRight_eq_div_pow]

theorem fields_source_toNat (w : Word) : (fields w).source.toNat = w.toNat % 2 ^ 14 := by
  simp [fields, BitVec.extractLsb'_toNat]

/-! ## Encoders as arithmetic -/

theorem encodeD_toNat (p : BitVec 4) (a b : Addr) :
    (encodeD p a b).toNat = p.toNat * 2 ^ 28 + a.toNat * 2 ^ 14 + b.toNat := by
  have ha := a.isLt
  have hb := b.isLt
  unfold encodeD
  rw [BitVec.toNat_append, BitVec.toNat_append, ← Nat.shiftLeft_add_eq_or_of_lt hb,
    ← Nat.shiftLeft_add_eq_or_of_lt ha, Nat.shiftLeft_eq, Nat.shiftLeft_eq]
  omega

theorem encodeS_toNat (o : BitVec 4) (m : BitVec 3) (t : BitVec 1) (i : BitVec 6) (s : Addr) :
    (encodeS o m t i s).toNat =
      o.toNat * 2 ^ 24 + m.toNat * 2 ^ 21 + t.toNat * 2 ^ 20 + i.toNat * 2 ^ 14 + s.toNat := by
  have ho := o.isLt
  have hm := m.isLt
  have ht := t.isLt
  have hi := i.isLt
  have hs := s.isLt
  unfold encodeS
  rw [BitVec.toNat_append, BitVec.toNat_append, BitVec.toNat_append, BitVec.toNat_append, BitVec.toNat_append,
    ← Nat.shiftLeft_add_eq_or_of_lt hs, ← Nat.shiftLeft_add_eq_or_of_lt hi, ← Nat.shiftLeft_add_eq_or_of_lt ht,
    ← Nat.shiftLeft_add_eq_or_of_lt hm, ← Nat.shiftLeft_add_eq_or_of_lt ho]
  simp only [Nat.shiftLeft_eq, Opcode.subDispatch, show (0 : BitVec 4).toNat = 0 from rfl]
  omega

/-! ## The fields of an encoded word -/

theorem fields_encodeD_primary (p : BitVec 4) (a b : Addr) : (fields (encodeD p a b)).primary = p := by
  apply BitVec.eq_of_toNat_eq
  have := a.isLt; have := b.isLt
  rw [fields_primary_toNat, encodeD_toNat]; omega

theorem fields_encodeD_operandA (p : BitVec 4) (a b : Addr) : (fields (encodeD p a b)).operandA = a := by
  apply BitVec.eq_of_toNat_eq
  have := a.isLt; have := b.isLt
  rw [fields_operandA_toNat, encodeD_toNat]; omega

theorem fields_encodeD_operandB (p : BitVec 4) (a b : Addr) : (fields (encodeD p a b)).operandB = b := by
  apply BitVec.eq_of_toNat_eq
  have := a.isLt; have := b.isLt
  rw [fields_operandB_toNat, encodeD_toNat]; omega

/-- All the fields of an S-form word. -/
theorem fields_encodeS (o : BitVec 4) (m : BitVec 3) (t : BitVec 1) (i : BitVec 6) (s : Addr) :
    (fields (encodeS o m t i s)).primary = 0 ∧ (fields (encodeS o m t i s)).secondary = o ∧
      (fields (encodeS o m t i s)).mode = m ∧ (fields (encodeS o m t i s)).bit20 = t ∧
      (fields (encodeS o m t i s)).immediate = i ∧ (fields (encodeS o m t i s)).source = s := by
  have := o.isLt; have := m.isLt; have := t.isLt; have := i.isLt; have := s.isLt
  refine ⟨?_, ?_, ?_, ?_, ?_, ?_⟩ <;> apply BitVec.eq_of_toNat_eq
  · rw [fields_primary_toNat, encodeS_toNat, show (0 : BitVec 4).toNat = 0 from rfl]; omega
  · rw [fields_secondary_toNat, encodeS_toNat]; omega
  · rw [fields_mode_toNat, encodeS_toNat]; omega
  · rw [fields_bit20_toNat, encodeS_toNat]; omega
  · rw [fields_immediate_toNat, encodeS_toNat]; omega
  · rw [fields_source_toNat, encodeS_toNat]; omega

/-! ## The word back from its fields -/

theorem encodeD_fields (w : Word) : encodeD (fields w).primary (fields w).operandA (fields w).operandB = w := by
  apply BitVec.eq_of_toNat_eq
  rw [encodeD_toNat, fields_primary_toNat, fields_operandA_toNat, fields_operandB_toNat]
  have := w.isLt
  omega

theorem encodeS_fields (w : Word) (h : (fields w).primary = 0) :
    encodeS (fields w).secondary (fields w).mode (fields w).bit20 (fields w).immediate (fields w).source = w := by
  apply BitVec.eq_of_toNat_eq
  have h0 := congrArg BitVec.toNat h
  rw [fields_primary_toNat, show (0 : BitVec 4).toNat = 0 from rfl] at h0
  rw [encodeS_toNat, fields_secondary_toNat, fields_mode_toNat, fields_bit20_toNat, fields_immediate_toNat,
    fields_source_toNat]
  have := w.isLt
  omega

/-- A number that is a D-form sum is that encoded word. -/
theorem ofNat_encodeD (p : BitVec 4) (a b : Addr) :
    BitVec.ofNat 32 (p.toNat * 2 ^ 28 + a.toNat * 2 ^ 14 + b.toNat) = encodeD p a b := by
  rw [← encodeD_toNat, BitVec.ofNat_toNat, BitVec.setWidth_eq]

/-- A number that is an S-form sum is that encoded word. -/
theorem ofNat_encodeS (o : BitVec 4) (m : BitVec 3) (t : BitVec 1) (i : BitVec 6) (s : Addr) :
    BitVec.ofNat 32 (o.toNat * 2 ^ 24 + m.toNat * 2 ^ 21 + t.toNat * 2 ^ 20 + i.toNat * 2 ^ 14 + s.toNat) =
      encodeS o m t i s := by
  rw [← encodeS_toNat, BitVec.ofNat_toNat, BitVec.setWidth_eq]

/-! ## The decoder on encoded words -/

theorem decode_encodeD (t : OpcodeTables) (p : BitVec 4) (a b : Addr) (h : p ≠ 0) : decode t (encodeD p a b) =
    decodeD t.primary { fields (encodeD p a b) with primary := p, operandA := a, operandB := b } := by
  have h1 : (fields (encodeD p a b)).primary ≠ Opcode.subDispatch := by rw [fields_encodeD_primary]; exact h
  rw [decode, if_neg h1, decodeD, decodeD, fields_encodeD_primary, fields_encodeD_operandA, fields_encodeD_operandB]

theorem decode_encodeS (c : OpcodeTables) (o : BitVec 4) (m : BitVec 3) (t : BitVec 1) (i : BitVec 6) (s : Addr) :
    decode c (encodeS o m t i s) = decodeS c { fields (encodeS o m t i s) with
      secondary := o, mode := m, bit20 := t, immediate := i, source := s } := by
  obtain ⟨h0, h1, h2, h3, h4, h5⟩ := fields_encodeS o m t i s
  rw [decode, if_pos (by rw [h0]; rfl), decodeS, decodeS, decodeCompare, decodeCompare, h1, h2, h3, h4, h5]

/-! ## The reference tables (30_encoding.md R77) -/

theorem reference_legal : OpcodeTables.reference.Legal := by decide

/-- What the four open INVALID rows admit under the reference tables (30_encoding.md R81, R82, R83). -/
theorem reference_invalidPrimary8to15 : ∀ p : BitVec 4,
    (p ≠ 0 ∧ p ≠ 7 ∧ p ∉ OpcodeTables.reference.primary.codes) ↔ 8 ≤ p.toNat := by decide

theorem reference_invalidSecondary6to7 : ∀ o : BitVec 4,
    ((o = 6 ∨ o = 7) ∧ o ∉ OpcodeTables.reference.secondary.codes) ↔ 6 ≤ o.toNat ∧ o.toNat ≤ 7 := by decide

theorem reference_invalidSecondary8to15 : ∀ o : BitVec 4,
    (o ≠ 5 ∧ o ≠ 6 ∧ o ≠ 7 ∧ o ∉ OpcodeTables.reference.secondary.codes) ↔ 8 ≤ o.toNat := by decide

theorem reference_invalidCompareMode6to7 : ∀ m : BitVec 3,
    (m ≠ 5 ∧ m ∉ OpcodeTables.reference.mode.codes) ↔ 6 ≤ m.toNat := by decide

end Sys2Proof
end

