-- ==== Sys2Proof/Laws/Float.lean ====
section
/-! SUPPORT. Laws of the binary64 primitives: the fields of a pattern as arithmetic on its number, what `pack`
builds, and that `roundBits` gives a nearest magnitude, ties to even. -/

namespace Sys2Proof.F64

/-! ## Fields as arithmetic -/

theorem exponent_eq (v : F64) : v.exponent = v.toNat / 4503599627370496 % 2048 := by
  simp [exponent, BitVec.extractLsb'_toNat, Nat.shiftRight_eq_div_pow]

theorem fraction_eq (v : F64) : v.fraction = v.toNat % 4503599627370496 := by
  simp [fraction, BitVec.extractLsb'_toNat]

theorem sign_eq (v : F64) : v.sign = decide (9223372036854775808 ≤ v.toNat) := by
  have : v.getLsbD 63 = v.msb := by simp [BitVec.msb, BitVec.getMsbD]
  rw [sign, this, BitVec.msb_eq_decide]

theorem fraction_lt (v : F64) : v.fraction < 4503599627370496 := by
  rw [fraction_eq]; omega

/-! ## What pack builds -/

theorem pack_toNat (neg : Bool) {bits : Nat} (h : bits < 9223372036854775808) :
    (pack neg bits).toNat = (if neg then 9223372036854775808 else 0) + bits := by
  cases neg <;> (simp [pack]; omega)

theorem pack_sign (neg : Bool) {bits : Nat} (h : bits < 9223372036854775808) : (pack neg bits).sign = neg := by
  rw [sign_eq, pack_toNat neg h]
  cases neg
  · simp; omega
  · simp

theorem pack_exponent (neg : Bool) {bits : Nat} (h : bits < 9223372036854775808) :
    (pack neg bits).exponent = bits / 4503599627370496 := by
  rw [exponent_eq, pack_toNat neg h]
  cases neg <;> (simp; omega)

theorem pack_fraction (neg : Bool) {bits : Nat} (h : bits < 9223372036854775808) :
    (pack neg bits).fraction = bits % 4503599627370496 := by
  rw [fraction_eq, pack_toNat neg h]
  cases neg
  · simp
  · simp; omega

theorem pack_isFinite (neg : Bool) {bits : Nat} (h : bits < infBits) : (pack neg bits).isFinite = true := by
  have h' : bits < 9223372036854775808 := by unfold infBits at h; omega
  unfold infBits at h
  simp only [isFinite, pack_exponent neg h', bne_iff_ne, ne_eq]
  omega

theorem inf_isInf (neg : Bool) : (inf neg).isInf = true := by cases neg <;> decide
theorem inf_sign (neg : Bool) : (inf neg).sign = neg := by cases neg <;> decide
theorem zero_isZero (neg : Bool) : (zero neg).isZero = true := by cases neg <;> decide
theorem zero_sign (neg : Bool) : (zero neg).sign = neg := by cases neg <;> decide

theorem isFinite_not_isNaN {v : F64} (h : v.isFinite = true) : v.isNaN = false := by
  simp_all [isFinite, isNaN]

theorem isFinite_not_isInf {v : F64} (h : v.isFinite = true) : v.isInf = false := by
  simp_all [isFinite, isInf]

/-- Every pattern is finite, an infinity or a NaN. -/
theorem isFinite_or_isInf_or_isNaN (v : F64) : v.isFinite = true ∨ v.isInf = true ∨ v.isNaN = true := by
  simp only [isFinite, isInf, isNaN, Bool.and_eq_true, beq_iff_eq, bne_iff_ne]
  omega

/-- Every drawn pattern is a NaN. -/
theorem nanPattern_isNaN (s : BitVec 1) (f : Fin 4503599627370495) : (nanPattern s f).isNaN = true := by
  have hf := f.isLt
  have ht : (nanPattern s f).toNat = s.toNat * 2 ^ 63 + 2047 * 2 ^ 52 + (f.val + 1) := by
    have h1 : (BitVec.ofNat 52 (f.val + 1)).toNat = f.val + 1 := by simp; omega
    have hs := s.isLt
    unfold nanPattern
    rw [BitVec.toNat_append, BitVec.toNat_append, h1, ← Nat.shiftLeft_add_eq_or_of_lt (by omega),
      ← Nat.shiftLeft_add_eq_or_of_lt (by decide)]
    simp [Nat.shiftLeft_eq]
    omega
  have hs := s.isLt
  rw [isNaN, exponent_eq, fraction_eq, ht]
  simp only [Bool.and_eq_true, beq_iff_eq, bne_iff_ne]
  omega

/-! ## Magnitudes -/

/-- The magnitude in units that the low 63 bits of a finite pattern stand for. -/
def magnitude (bits : Nat) : Nat :=
  if bits / 4503599627370496 = 0 then bits % 4503599627370496
  else (4503599627370496 + bits % 4503599627370496) <<< (bits / 4503599627370496 - 1)

theorem units_pack (neg : Bool) {bits : Nat} (h : bits < 9223372036854775808) :
    (pack neg bits).units = magnitude bits := by
  unfold units significand scale magnitude
  rw [pack_exponent neg h, pack_fraction neg h]
  by_cases h0 : bits / 4503599627370496 = 0
  · rw [if_pos h0, if_pos h0, h0]; rfl
  · rw [if_neg h0, if_neg h0]

theorem signedUnits_pack (neg : Bool) {bits : Nat} (h : bits < 9223372036854775808) :
    (pack neg bits).signedUnits = if neg then -(magnitude bits : Int) else (magnitude bits : Int) := by
  rw [signedUnits, pack_sign neg h, units_pack neg h]

/-- A significand `n` at place `k`, written as low bits: the carry into the exponent comes out right. -/
theorem magnitude_place {k n : Nat} (hn : n ≤ 9007199254740992) (hk : k = 0 ∨ 4503599627370496 ≤ n) :
    magnitude (k <<< 52 + n) = n <<< k := by
  have e : k <<< 52 = k * 4503599627370496 := by rw [Nat.shiftLeft_eq]
  rw [magnitude, e]
  by_cases h1 : n < 4503599627370496
  · obtain rfl : k = 0 := by omega
    have : (0 * 4503599627370496 + n) / 4503599627370496 = 0 := by omega
    rw [if_pos this]; simp; omega
  · by_cases h2 : n = 9007199254740992
    · have a : (k * 4503599627370496 + n) / 4503599627370496 = k + 2 := by omega
      have b : (k * 4503599627370496 + n) % 4503599627370496 = 0 := by omega
      rw [a, b, h2, if_neg (by omega)]
      simp only [Nat.shiftLeft_eq, Nat.add_succ_sub_one, Nat.pow_succ]
      ring
    · have a : (k * 4503599627370496 + n) / 4503599627370496 = k + 1 := by omega
      have b : (k * 4503599627370496 + n) % 4503599627370496 = n - 4503599627370496 := by omega
      rw [a, b, if_neg (by omega), Nat.add_sub_cancel, Nat.add_sub_cancel' (by omega)]

/-- A finite magnitude at or above `2^(52+k)` is a multiple of `2^k`; below that it is just smaller. -/
theorem units_multiple (c : F64) (k : Nat) :
    (∃ j, c.units = j * 2 ^ k) ∨ (0 < k ∧ c.units < 4503599627370496 * 2 ^ k) := by
  rcases Nat.lt_or_ge c.scale k with h | h
  · right
    refine ⟨by omega, ?_⟩
    have hf := c.fraction_lt
    have hs : c.significand < 2 * 4503599627370496 := by unfold significand; split <;> omega
    have hp : 2 * 2 ^ c.scale ≤ 2 ^ k := by
      rw [← Nat.pow_succ']; exact Nat.pow_le_pow_right (by omega) h
    rw [units, Nat.shiftLeft_eq]
    calc c.significand * 2 ^ c.scale
        < 2 * 4503599627370496 * 2 ^ c.scale := by
          apply Nat.mul_lt_mul_of_pos_right hs; positivity
      _ = 4503599627370496 * (2 * 2 ^ c.scale) := by ring
      _ ≤ 4503599627370496 * 2 ^ k := Nat.mul_le_mul_left _ hp
  · left
    refine ⟨c.significand * 2 ^ (c.scale - k), ?_⟩
    rw [units, Nat.shiftLeft_eq, Nat.mul_assoc, ← Nat.pow_add]
    congr 2; omega

/-! ## Rounding -/

/-- `divNearestEven` is within half of `den`, and even where it is exactly half. -/
theorem divNearestEven_half (num den : Nat) (hd : 0 < den) :
    2 * |(divNearestEven num den : Int) * den - num| ≤ den ∧
      (2 * |(divNearestEven num den : Int) * den - num| = den → divNearestEven num den % 2 = 0) := by
  have hr := Nat.mod_lt num hd
  have hq := Nat.div_add_mod num den
  generalize hqq : num / den = q at *
  generalize hrr : num % den = r at *
  have e1 : (num : Int) = q * den + r := by rw [← hq]; push_cast; ring
  have a0 : |(q : Int) * den - num| = r := by
    rw [e1]; rw [show (q : Int) * den - (q * den + r) = -(r : Int) by ring, abs_neg, abs_of_nonneg (by omega)]
  have a1 : |((q + 1 : Nat) : Int) * den - num| = den - r := by
    rw [e1]; rw [show ((q + 1 : Nat) : Int) * den - (q * den + r) = den - r by push_cast; ring,
      abs_of_nonneg (by omega)]
  unfold divNearestEven
  simp only [hqq, hrr]
  split
  · rw [a0]; omega
  · split
    · rw [a1]; omega
    · split
      · rw [a0]; omega
      · rw [a1]; omega

/-- `divNearestEven` is a nearest natural, and even where another is as near. -/
theorem divNearestEven_nearest (num den : Nat) (hd : 0 < den) (j : Nat) :
    |(divNearestEven num den : Int) * den - num| ≤ |(j : Int) * den - num| ∧
      (|(divNearestEven num den : Int) * den - num| = |(j : Int) * den - num| → j ≠ divNearestEven num den →
        divNearestEven num den % 2 = 0) := by
  obtain ⟨h1, h2⟩ := divNearestEven_half num den hd
  generalize divNearestEven num den = n at *
  by_cases hj : j = n
  · subst hj; exact ⟨le_refl _, fun _ h => absurd rfl h⟩
  · have hfar : (den : Int) ≤ |(j : Int) * den - n * den| := by
      rw [← sub_mul, abs_mul, abs_of_nonneg (by omega : (0 : Int) ≤ den)]
      have : (1 : Int) ≤ |(j : Int) - n| := Int.one_le_abs (by omega)
      nlinarith
    have htri : |(j : Int) * den - n * den| ≤ |(j : Int) * den - num| + |(n : Int) * den - num| := by
      have := abs_sub_le ((j : Int) * den) num (n * den)
      rwa [abs_sub_comm (num : Int) (n * den)] at this
    refine ⟨by omega, fun he _ => h2 (by omega)⟩

/-- The place at which `roundBits` rounds. -/
def roundPlace (num den : Nat) : Nat := (num / den).log2 - 52

/-- The significand `roundBits` rounds to. -/
def roundSignificand (num den : Nat) : Nat := divNearestEven num (den <<< roundPlace num den)

theorem roundBits_eq (num den : Nat) :
    roundBits num den = min (roundPlace num den <<< 52 + roundSignificand num den) infBits := rfl

theorem divNearestEven_le {num den m : Nat} (h : num < (m + 1) * den) :
    divNearestEven num den ≤ m + 1 := by
  have : num / den < m + 1 := Nat.div_lt_of_lt_mul (by rwa [Nat.mul_comm] at h)
  unfold divNearestEven
  dsimp only
  split_ifs <;> omega

theorem le_divNearestEven {num den m : Nat} (hd : 0 < den) (h : m * den ≤ num) : m ≤ divNearestEven num den := by
  have : m ≤ num / den := (Nat.le_div_iff_mul_le hd).2 h
  unfold divNearestEven
  dsimp only
  split_ifs <;> omega

/-- Where the rounding place is above the unit, the value is at least `2^52` at that place. -/
theorem roundPlace_le {num den : Nat} (hd : 0 < den) (h : 0 < roundPlace num den) :
    4503599627370496 * (den <<< roundPlace num den) ≤ num := by
  unfold roundPlace at *
  have hq : num / den ≠ 0 := by rintro h0; simp [h0] at h
  have h1 := Nat.log2_self_le hq
  have h2 : 2 ^ (num / den).log2 = 4503599627370496 * 2 ^ ((num / den).log2 - 52) := by
    rw [show (4503599627370496 : Nat) = 2 ^ 52 by norm_num, ← Nat.pow_add]; congr 1; omega
  have h3 := (Nat.le_div_iff_mul_le hd).1 (h2 ▸ h1)
  rw [Nat.shiftLeft_eq]
  calc _ = 4503599627370496 * 2 ^ ((num / den).log2 - 52) * den := by ring
    _ ≤ num := h3

/-- The value is below `2^53` at the rounding place. -/
theorem lt_roundPlace {num den : Nat} (hd : 0 < den) :
    num < 9007199254740992 * (den <<< roundPlace num den) := by
  unfold roundPlace
  have h1 : num / den < 2 ^ ((num / den).log2 + 1) := Nat.lt_log2_self
  have h2 : 2 ^ ((num / den).log2 + 1) ≤ 9007199254740992 * 2 ^ ((num / den).log2 - 52) := by
    rw [show (9007199254740992 : Nat) = 2 ^ 53 by norm_num, ← Nat.pow_add]
    exact Nat.pow_le_pow_right (by omega) (by omega)
  have h3 : num < den * (9007199254740992 * 2 ^ ((num / den).log2 - 52)) :=
    (Nat.div_lt_iff_lt_mul hd).1 (lt_of_lt_of_le h1 h2) |>.trans_eq (by ring)
  rw [Nat.shiftLeft_eq]
  calc num < _ := h3
    _ = _ := by ring

theorem roundSignificand_le {num den : Nat} (hd : 0 < den) : roundSignificand num den ≤ 9007199254740992 :=
  divNearestEven_le (m := 9007199254740991) (lt_roundPlace hd)

theorem roundSignificand_ge {num den : Nat} (hd : 0 < den) :
    roundPlace num den = 0 ∨ 4503599627370496 ≤ roundSignificand num den := by
  rcases Nat.eq_zero_or_pos (roundPlace num den) with h | h
  · exact .inl h
  · exact .inr (le_divNearestEven (by rw [Nat.shiftLeft_eq]; positivity) (roundPlace_le hd h))

theorem roundBits_le (num den : Nat) : roundBits num den ≤ infBits := by rw [roundBits_eq]; omega

theorem roundBits_lt (num den : Nat) : roundBits num den < 9223372036854775808 :=
  lt_of_le_of_lt (roundBits_le num den) (by decide)

/-- A magnitude that does not round to an infinity is its significand at its place. -/
theorem magnitude_roundBits {num den : Nat} (hd : 0 < den) (h : roundBits num den < infBits) :
    magnitude (roundBits num den) = roundSignificand num den <<< roundPlace num den := by
  rw [roundBits_eq] at h ⊢
  rw [Nat.min_eq_left (by omega), magnitude_place (roundSignificand_le hd) (roundSignificand_ge hd)]

theorem roundBits_parity {num den : Nat} (h : roundBits num den < infBits) :
    roundBits num den % 2 = roundSignificand num den % 2 := by
  rw [roundBits_eq] at h ⊢
  rw [Nat.min_eq_left (by omega), Nat.shiftLeft_eq]
  omega

/-- roundTiesToEven on magnitudes: no finite pattern's magnitude is nearer to `num / den` units than the one
`roundBits` gives, and where one that differs is as near, the one given is even. -/
theorem roundBits_nearest {num den : Nat} (hd : 0 < den) (h : roundBits num den < infBits) (c : F64) :
    |(magnitude (roundBits num den) : Int) * den - num| ≤ |(c.units : Int) * den - num| ∧
      (|(magnitude (roundBits num den) : Int) * den - num| = |(c.units : Int) * den - num| →
        c.units ≠ magnitude (roundBits num den) → roundBits num den % 2 = 0) := by
  rw [roundBits_parity h, magnitude_roundBits hd h]
  set k := roundPlace num den with hk
  set n := roundSignificand num den with hn
  have hD : 0 < den <<< k := by rw [Nat.shiftLeft_eq]; positivity
  have e : ∀ m : Nat, ((m * 2 ^ k : Nat) : Int) * den = (m : Int) * ((den <<< k : Nat) : Int) := by
    intro m; rw [Nat.shiftLeft_eq]; push_cast; ring
  have near := divNearestEven_nearest num (den <<< k) hD
  have hndef : divNearestEven num (den <<< k) = n := rfl
  rw [Nat.shiftLeft_eq n k, e]
  rcases units_multiple c k with ⟨j, hj⟩ | ⟨hk0, hlt⟩
  · rw [hj, e]
    obtain ⟨h1, h2⟩ := near j
    rw [hndef] at h1 h2
    refine ⟨h1, fun he hne => h2 he ?_⟩
    rintro rfl; exact hne rfl
  · obtain ⟨h1, -⟩ := near 4503599627370496
    rw [hndef] at h1
    have hle : 4503599627370496 * (den <<< k) ≤ num := roundPlace_le hd hk0
    have hs : (c.units : Int) * den < 4503599627370496 * ((den <<< k : Nat) : Int) := by
      have : c.units * den < 4503599627370496 * 2 ^ k * den := Nat.mul_lt_mul_of_pos_right hlt hd
      have e2 : 4503599627370496 * 2 ^ k * den = 4503599627370496 * (den <<< k) := by
        rw [Nat.shiftLeft_eq]; ring
      rw [e2] at this; exact_mod_cast this
    have hle' : (4503599627370496 : Int) * ((den <<< k : Nat) : Int) ≤ num := by exact_mod_cast hle
    have a1 : |(4503599627370496 : Int) * ((den <<< k : Nat) : Int) - num| =
        num - 4503599627370496 * ((den <<< k : Nat) : Int) := by rw [abs_of_nonpos (by omega)]; ring
    have a2 : |(c.units : Int) * den - num| = num - c.units * den := by rw [abs_of_nonpos (by omega)]; ring
    rw [show ((4503599627370496 : Nat) : Int) = 4503599627370496 from rfl, a1] at h1
    rw [a2]
    exact ⟨by omega, fun he _ => by omega⟩

/-- A magnitude rounds to an infinity exactly from `overflowUnits` on. -/
theorem roundBits_inf {num den : Nat} (hd : 0 < den) :
    roundBits num den = infBits ↔ overflowUnits * den ≤ num := by
  have hle := roundSignificand_le (num := num) hd
  have hge := roundSignificand_ge (num := num) hd
  have hup := lt_roundPlace (num := num) hd
  have key : roundBits num den = infBits ↔
      2046 ≤ roundPlace num den ∨ (roundPlace num den = 2045 ∧ roundSignificand num den = 9007199254740992) := by
    rw [roundBits_eq, infBits, Nat.shiftLeft_eq]
    omega
  rw [key]
  have hov : overflowUnits * den = 18014398509481983 * (den * 2 ^ 2044) := by
    unfold overflowUnits
    rw [Nat.shiftLeft_eq]
    exact (Nat.mul_assoc ..).trans (congrArg _ (Nat.mul_comm ..))
  rw [hov]
  have mono : ∀ {i j : Nat}, i ≤ j → den * 2 ^ i ≤ den * 2 ^ j := fun h =>
    Nat.mul_le_mul_left _ (Nat.pow_le_pow_right (by omega) h)
  have s1 : den * 2 ^ 2045 = 2 * (den * 2 ^ 2044) := by rw [Nat.pow_succ]; ring
  have s2 : den * 2 ^ 2046 = 4 * (den * 2 ^ 2044) := by rw [Nat.pow_succ, Nat.pow_succ]; ring
  rcases Nat.lt_trichotomy (roundPlace num den) 2045 with h | h | h
  · have h0 := mono (show roundPlace num den ≤ 2044 by omega)
    rw [Nat.shiftLeft_eq] at hup
    constructor
    · omega
    · intro hn; omega
  · have half := divNearestEven_half num (den <<< 2045) (by rw [Nat.shiftLeft_eq]; positivity)
    have hn : divNearestEven num (den <<< 2045) = roundSignificand num den := by rw [roundSignificand, h]
    rw [h] at hup
    rw [hn, Nat.shiftLeft_eq, s1] at half
    rw [Nat.shiftLeft_eq, s1] at hup
    generalize roundSignificand num den = n at *
    generalize den * 2 ^ 2044 = x at *
    have hlow : (n : Int) * ((2 * x : Nat) : Int) - num ≤ |(n : Int) * ((2 * x : Nat) : Int) - num| := le_abs_self _
    have hhigh : -((n : Int) * ((2 * x : Nat) : Int) - num) ≤ |(n : Int) * ((2 * x : Nat) : Int) - num| := neg_le_abs _
    constructor
    · rintro (h' | ⟨-, rfl⟩)
      · omega
      · obtain ⟨h1, h2⟩ := half
        push_cast at *; omega
    · intro hnum
      right
      refine ⟨h, ?_⟩
      by_contra hne
      have hn1 : n ≤ 9007199254740991 := by omega
      obtain ⟨h1, h2⟩ := half
      have hx : (n : Int) * ((2 * x : Nat) : Int) ≤ 9007199254740991 * ((2 * x : Nat) : Int) := by
        apply mul_le_mul_of_nonneg_right (by omega) (by omega)
      have hn2 : n = 9007199254740991 := by
        by_contra hne2
        have hx2 : (n : Int) * ((2 * x : Nat) : Int) ≤ 9007199254740990 * ((2 * x : Nat) : Int) := by
          apply mul_le_mul_of_nonneg_right (by omega) (by omega)
        have hxpos : 0 < x := by
          rcases Nat.eq_zero_or_pos x with rfl | hx0
          · omega
          · exact hx0
        push_cast at *; omega
      subst hn2
      have := h2 (by push_cast at *; omega)
      omega
  · have h0 := mono (show 2046 ≤ roundPlace num den by omega)
    have hlow := roundPlace_le hd (show 0 < roundPlace num den by omega)
    rw [Nat.shiftLeft_eq] at hlow
    constructor
    · intro _; omega
    · intro _; left; omega

end Sys2Proof.F64
end

