-- ==== Sys2Proof/Laws/Memory.lean ====
section
/-! SUPPORT. Laws of the sparse arrays: read after write, the canonical form and the bound that every operation
keeps, and that equal contents are equal data. -/

namespace Sys2Proof.Machine.Memory

@[simp] theorem read_nil (a : Nat) : Memory.read [] a = F64.posZero := rfl

/-- An index below every listed one reads `+0.0`. -/
theorem read_of_lt (m : Memory) (a : Nat) (h : ∀ p ∈ m, a < p.1) : m.read a = F64.posZero := by
  induction m with
  | nil => rfl
  | cons p m ih =>
    have h1 := h p (by simp)
    have h2 : p.1 ≠ a := by omega
    simp only [read, h2, if_false]
    exact ih fun q hq => h q (by simp [hq])

/-- An index not listed reads `+0.0`. -/
theorem read_of_not_mem (m : Memory) (a : Nat) (h : ∀ p ∈ m, p.1 ≠ a) : m.read a = F64.posZero := by
  induction m with
  | nil => rfl
  | cons p m ih =>
    simp only [read, h p (by simp), if_false]
    exact ih fun q hq => h q (by simp [hq])

theorem wf_nil : Memory.wf [] := by simp [Memory.wf]

theorem wf_tail {p : Nat × F64} {m : Memory} (h : Memory.wf (p :: m)) : Memory.wf m :=
  ⟨(List.pairwise_cons.1 h.1).2, fun q hq => h.2 q (by simp [hq])⟩

theorem wf_head_lt {p : Nat × F64} {m : Memory} (h : Memory.wf (p :: m)) : ∀ q ∈ m, p.1 < q.1 :=
  (List.pairwise_cons.1 h.1).1

/-- Where the entries of a write come from. -/
theorem mem_write {m : Memory} {a : Nat} {v : F64} {q : Nat × F64} (h : q ∈ m.write a v) :
    q ∈ m ∨ (q = (a, v) ∧ v ≠ F64.posZero) := by
  induction m with
  | nil =>
    simp only [write] at h
    split at h <;> simp_all
  | cons p m ih =>
    obtain ⟨k, w⟩ := p
    simp only [write] at h
    split_ifs at h <;> simp only [List.mem_cons] at h ⊢
    · exact .inl h
    · rcases h with h | h
      · exact .inr ⟨h, ‹_›⟩
      · exact .inl h
    · exact .inl (.inr h)
    · rcases h with h | h
      · exact .inr ⟨h, ‹_›⟩
      · exact .inl (.inr h)
    · rcases h with h | h
      · exact .inl (.inl h)
      · exact (ih h).imp_left .inr

/-- A write keeps the canonical form. -/
theorem wf_write {m : Memory} (h : m.wf) (a : Nat) (v : F64) : (m.write a v).wf := by
  induction m with
  | nil =>
    simp only [write]
    split <;> simp_all [Memory.wf]
  | cons p m ih =>
    obtain ⟨k, w⟩ := p
    have ht := wf_tail h
    have hl := wf_head_lt h
    have hw : w ≠ F64.posZero := h.2 (k, w) (by simp)
    simp only [write]
    split_ifs with h1 h2 h3 h4
    · exact h
    · refine ⟨List.pairwise_cons.2 ⟨?_, h.1⟩, ?_⟩
      · intro q hq
        rcases List.mem_cons.1 hq with rfl | hq
        · exact h1
        · exact lt_trans h1 (hl q hq)
      · intro q hq
        rcases List.mem_cons.1 hq with rfl | hq
        · exact h2
        · exact h.2 q hq
    · exact ht
    · refine ⟨List.pairwise_cons.2 ⟨?_, ht.1⟩, ?_⟩
      · intro q hq; have := hl q hq; simp only at *; omega
      · intro q hq
        rcases List.mem_cons.1 hq with rfl | hq
        · exact h4
        · exact ht.2 q hq
    · have hi := ih ht
      refine ⟨List.pairwise_cons.2 ⟨?_, hi.1⟩, ?_⟩
      · intro q hq
        rcases mem_write hq with hq | ⟨rfl, -⟩
        · exact hl q hq
        · simp only; omega
      · intro q hq
        rcases List.mem_cons.1 hq with rfl | hq
        · exact hw
        · exact hi.2 q hq

/-- A write below a bound keeps the bound. -/
theorem below_write {m : Memory} {bound : Nat} (h : m.below bound) {a : Nat} (ha : a < bound) (v : F64) :
    (m.write a v).below bound := by
  intro q hq
  rcases mem_write hq with hq | ⟨rfl, -⟩
  · exact h q hq
  · exact ha

theorem below_mono {m : Memory} {b c : Nat} (h : m.below b) (hbc : b ≤ c) : m.below c :=
  fun q hq => lt_of_lt_of_le (h q hq) hbc

/-- An index at or above the bound reads `+0.0`. -/
theorem read_of_below {m : Memory} {bound : Nat} (h : m.below bound) {a : Nat} (ha : bound ≤ a) :
    m.read a = F64.posZero :=
  read_of_not_mem m a fun p hp => by have := h p hp; omega

/-- Read after write: the written index holds the value, every other index what it held. -/
theorem read_write {m : Memory} (h : m.wf) (a b : Nat) (v : F64) :
    (m.write a v).read b = if b = a then v else m.read b := by
  induction m with
  | nil =>
    simp only [write]
    split <;> simp only [read] <;> split_ifs <;> simp_all
  | cons p m ih =>
    obtain ⟨k, w⟩ := p
    have hl := wf_head_lt h
    have hlow : ∀ c, c ≤ k → Memory.read m c = F64.posZero := fun c hc =>
      read_of_lt m c fun q hq => lt_of_le_of_lt hc (hl q hq)
    simp only [write]
    split_ifs with h1 h2 h3 h4 h5 h6 h7 h8 h9
    · subst h3; rw [h2]
      simp only [read]; rw [if_neg (by omega)]; exact hlow _ (by omega)
    · rfl
    · subst h4; simp [read]
    · simp only [read]; rw [if_neg (by omega)]
    · subst h5; rw [h6, h7]; exact hlow _ le_rfl
    · simp only [read]; rw [if_neg (by omega)]
    · simp only [read]; rw [if_pos (by omega)]
    · simp only [read]; rw [if_neg (by omega), if_neg (by omega)]
    · simp only [read]; rw [if_neg (by omega), ih (wf_tail h), if_pos h9]
    · simp only [read]; rw [ih (wf_tail h), if_neg h9]

@[simp] theorem read_write_same {m : Memory} (h : m.wf) (a : Nat) (v : F64) : (m.write a v).read a = v := by
  rw [read_write h, if_pos rfl]

theorem read_write_other {m : Memory} (h : m.wf) {a b : Nat} (hb : b ≠ a) (v : F64) :
    (m.write a v).read b = m.read b := by
  rw [read_write h, if_neg hb]

/-- Equal contents are equal data. -/
theorem ext_of_read {m n : Memory} (hm : m.wf) (hn : n.wf) (h : ∀ a, m.read a = n.read a) : m = n := by
  induction m generalizing n with
  | nil =>
    cases n with
    | nil => rfl
    | cons q n =>
      have := h q.1
      simp only [read, if_true] at this
      exact absurd this.symm (hn.2 q (by simp))
  | cons p m ih =>
    cases n with
    | nil =>
      have := h p.1
      simp only [read, if_true] at this
      exact absurd this (hm.2 p (by simp))
    | cons q n =>
      have hpm := wf_head_lt hm
      have hqn := wf_head_lt hn
      have hp := h p.1
      have hq := h q.1
      simp only [read, if_true] at hp hq
      have hkey : p.1 = q.1 := by
        rcases Nat.lt_trichotomy p.1 q.1 with hlt | heq | hlt
        · rw [if_neg (by omega), read_of_lt n p.1 fun r hr => lt_trans hlt (hqn r hr)] at hp
          exact absurd hp (hm.2 p (by simp))
        · exact heq
        · rw [if_neg (by omega), read_of_lt m q.1 fun r hr => lt_trans hlt (hpm r hr)] at hq
          exact absurd hq.symm (hn.2 q (by simp))
      rw [if_pos hkey.symm] at hp
      have hpq : p = q := Prod.ext hkey hp
      subst hpq
      congr 1
      refine ih (wf_tail hm) (wf_tail hn) fun a => ?_
      have ha := h a
      simp only [read] at ha
      by_cases hpa : p.1 = a
      · subst hpa; rw [read_of_lt m _ hpm, read_of_lt n _ hqn]
      · rwa [if_neg hpa, if_neg hpa] at ha

/-! ## writeFrom (20_memory.md R58) -/

theorem wf_writeFrom {m : Memory} (h : m.wf) (i : Nat) (cs : List F64) : (m.writeFrom i cs).wf := by
  induction cs generalizing m i with
  | nil => exact h
  | cons c cs ih => exact ih (wf_write h i c) (i + 1)

theorem below_writeFrom {m : Memory} {bound : Nat} (h : m.below bound) (i : Nat) (cs : List F64)
    (hb : i + cs.length ≤ bound) : (m.writeFrom i cs).below bound := by
  induction cs generalizing m i with
  | nil => exact h
  | cons c cs ih =>
    simp only [List.length_cons] at hb
    exact ih (below_write h (by omega) c) (i + 1) (by omega)

/-- Slot `i + k` holds the `k`-th constant; a slot outside the written range holds what it held. -/
theorem read_writeFrom {m : Memory} (h : m.wf) (i : Nat) (cs : List F64) (a : Nat) :
    (m.writeFrom i cs).read a =
      if h' : i ≤ a ∧ a < i + cs.length then cs[a - i]'(by omega) else m.read a := by
  induction cs generalizing m i with
  | nil => simp [writeFrom]
  | cons c cs ih =>
    simp only [writeFrom]
    rw [ih (wf_write h i c) (i + 1), read_write h]
    simp only [List.length_cons]
    by_cases h1 : i + 1 ≤ a ∧ a < i + 1 + cs.length
    · rw [dif_pos h1, dif_pos (by omega)]
      simp only [show a - i = (a - (i + 1)) + 1 by omega, List.getElem_cons_succ]
    · rw [dif_neg h1]
      by_cases h2 : a = i
      · subst h2
        rw [if_pos rfl, dif_pos (by omega)]
        simp
      · rw [if_neg h2, dif_neg (by omega)]

end Sys2Proof.Machine.Memory
end

