-- ==== Sys2Proof/Laws/State.lean ====
section
/-! SUPPORT. One lemma per field per update of the state, each true by rfl. -/

namespace Sys2Proof.Machine.State

/-! ## advance -/

@[simp] theorem advance_cfg (s : State) : (s.advance).cfg = s.cfg := rfl
@[simp] theorem advance_phase (s : State) : (s.advance).phase = s.phase := rfl
@[simp] theorem advance_imem (s : State) : (s.advance).imem = s.imem := rfl
@[simp] theorem advance_mem (s : State) : (s.advance).mem = s.mem := rfl
@[simp] theorem advance_status (s : State) : (s.advance).status = s.status := rfl
@[simp] theorem advance_inPort (s : State) : (s.advance).inPort = s.inPort := rfl
@[simp] theorem advance_outPort (s : State) : (s.advance).outPort = s.outPort := rfl
@[simp] theorem advance_pc (s : State) : (s.advance).pc = s.pc + 1 := rfl
@[simp] theorem advance_pending (s : State) : (s.advance).pending = s.pending := rfl
@[simp] theorem advance_replies (s : State) : (s.advance).replies = s.replies := rfl
@[simp] theorem advance_draws (s : State) : (s.advance).draws = s.draws := rfl

/-! ## draw -/

@[simp] theorem draw_cfg (s : State) : (s.draw).cfg = s.cfg := rfl
@[simp] theorem draw_phase (s : State) : (s.draw).phase = s.phase := rfl
@[simp] theorem draw_imem (s : State) : (s.draw).imem = s.imem := rfl
@[simp] theorem draw_mem (s : State) : (s.draw).mem = s.mem := rfl
@[simp] theorem draw_status (s : State) : (s.draw).status = s.status := rfl
@[simp] theorem draw_inPort (s : State) : (s.draw).inPort = s.inPort := rfl
@[simp] theorem draw_outPort (s : State) : (s.draw).outPort = s.outPort := rfl
@[simp] theorem draw_pc (s : State) : (s.draw).pc = s.pc := rfl
@[simp] theorem draw_pending (s : State) : (s.draw).pending = s.pending := rfl
@[simp] theorem draw_replies (s : State) : (s.draw).replies = s.replies := rfl
@[simp] theorem draw_draws (s : State) : (s.draw).draws = s.draws + 1 := rfl

/-! ## setStatus -/

@[simp] theorem setStatus_cfg (s : State) (b : Bool) : (s.setStatus b).cfg = s.cfg := rfl
@[simp] theorem setStatus_phase (s : State) (b : Bool) : (s.setStatus b).phase = s.phase := rfl
@[simp] theorem setStatus_imem (s : State) (b : Bool) : (s.setStatus b).imem = s.imem := rfl
@[simp] theorem setStatus_mem (s : State) (b : Bool) : (s.setStatus b).mem = s.mem := rfl
@[simp] theorem setStatus_status (s : State) (b : Bool) : (s.setStatus b).status = b := rfl
@[simp] theorem setStatus_inPort (s : State) (b : Bool) : (s.setStatus b).inPort = s.inPort := rfl
@[simp] theorem setStatus_outPort (s : State) (b : Bool) : (s.setStatus b).outPort = s.outPort := rfl
@[simp] theorem setStatus_pc (s : State) (b : Bool) : (s.setStatus b).pc = s.pc + 1 := rfl
@[simp] theorem setStatus_pending (s : State) (b : Bool) : (s.setStatus b).pending = s.pending := rfl
@[simp] theorem setStatus_replies (s : State) (b : Bool) : (s.setStatus b).replies = s.replies := rfl
@[simp] theorem setStatus_draws (s : State) (b : Bool) : (s.setStatus b).draws = s.draws := rfl

/-! ## writePort -/

@[simp] theorem writePort_cfg (s : State) (p : Addr) (v : F64) : (s.writePort p v).cfg = s.cfg := rfl
@[simp] theorem writePort_phase (s : State) (p : Addr) (v : F64) : (s.writePort p v).phase = s.phase := rfl
@[simp] theorem writePort_imem (s : State) (p : Addr) (v : F64) : (s.writePort p v).imem = s.imem := rfl
@[simp] theorem writePort_mem (s : State) (p : Addr) (v : F64) : (s.writePort p v).mem = s.mem := rfl
@[simp] theorem writePort_status (s : State) (p : Addr) (v : F64) : (s.writePort p v).status = s.status := rfl
@[simp] theorem writePort_inPort (s : State) (p : Addr) (v : F64) : (s.writePort p v).inPort = s.inPort := rfl
@[simp] theorem writePort_outPort (s : State) (p : Addr) (v : F64) : (s.writePort p v).outPort = s.outPort.write (addrIndex p) v := rfl
@[simp] theorem writePort_pc (s : State) (p : Addr) (v : F64) : (s.writePort p v).pc = s.pc + 1 := rfl
@[simp] theorem writePort_pending (s : State) (p : Addr) (v : F64) : (s.writePort p v).pending = s.pending := rfl
@[simp] theorem writePort_replies (s : State) (p : Addr) (v : F64) : (s.writePort p v).replies = s.replies := rfl
@[simp] theorem writePort_draws (s : State) (p : Addr) (v : F64) : (s.writePort p v).draws = s.draws := rfl

/-! ## compareZero -/

@[simp] theorem compareZero_cfg (s : State) (r : Relation) (a : Addr) : (s.compareZero r a).cfg = s.cfg := rfl
@[simp] theorem compareZero_phase (s : State) (r : Relation) (a : Addr) : (s.compareZero r a).phase = s.phase := rfl
@[simp] theorem compareZero_imem (s : State) (r : Relation) (a : Addr) : (s.compareZero r a).imem = s.imem := rfl
@[simp] theorem compareZero_mem (s : State) (r : Relation) (a : Addr) : (s.compareZero r a).mem = s.mem := rfl
@[simp] theorem compareZero_status (s : State) (r : Relation) (a : Addr) : (s.compareZero r a).status = r.holdsOfZero (s.slotOperand a) := rfl
@[simp] theorem compareZero_inPort (s : State) (r : Relation) (a : Addr) : (s.compareZero r a).inPort = s.inPort := rfl
@[simp] theorem compareZero_outPort (s : State) (r : Relation) (a : Addr) : (s.compareZero r a).outPort = s.outPort := rfl
@[simp] theorem compareZero_pc (s : State) (r : Relation) (a : Addr) : (s.compareZero r a).pc = s.pc + 1 := rfl
@[simp] theorem compareZero_pending (s : State) (r : Relation) (a : Addr) : (s.compareZero r a).pending = s.pending := rfl
@[simp] theorem compareZero_replies (s : State) (r : Relation) (a : Addr) : (s.compareZero r a).replies = s.replies := rfl
@[simp] theorem compareZero_draws (s : State) (r : Relation) (a : Addr) : (s.compareZero r a).draws = s.draws := rfl

/-! ## reply -/

@[simp] theorem reply_cfg (s : State) (r : Reply) : (s.reply r).cfg = s.cfg := rfl
@[simp] theorem reply_phase (s : State) (r : Reply) : (s.reply r).phase = s.phase := rfl
@[simp] theorem reply_imem (s : State) (r : Reply) : (s.reply r).imem = s.imem := rfl
@[simp] theorem reply_mem (s : State) (r : Reply) : (s.reply r).mem = s.mem := rfl
@[simp] theorem reply_status (s : State) (r : Reply) : (s.reply r).status = s.status := rfl
@[simp] theorem reply_inPort (s : State) (r : Reply) : (s.reply r).inPort = s.inPort := rfl
@[simp] theorem reply_outPort (s : State) (r : Reply) : (s.reply r).outPort = s.outPort := rfl
@[simp] theorem reply_pc (s : State) (r : Reply) : (s.reply r).pc = s.pc := rfl
@[simp] theorem reply_pending (s : State) (r : Reply) : (s.reply r).pending = s.pending := rfl
@[simp] theorem reply_replies (s : State) (r : Reply) : (s.reply r).replies = s.replies ++ [r] := rfl
@[simp] theorem reply_draws (s : State) (r : Reply) : (s.reply r).draws = s.draws := rfl

/-! ## install -/

@[simp] theorem install_cfg (s : State) (image : List Byte) : (s.install image).cfg = s.cfg := rfl
@[simp] theorem install_phase (s : State) (image : List Byte) : (s.install image).phase = .ready := rfl
@[simp] theorem install_imem (s : State) (image : List Byte) : (s.install image).imem = imageWords s.cfg.imageEndian image := rfl
@[simp] theorem install_mem (s : State) (image : List Byte) : (s.install image).mem = s.mem.writeFrom 0 (imageConstants s.cfg.imageEndian image) := rfl
@[simp] theorem install_status (s : State) (image : List Byte) : (s.install image).status = s.status := rfl
@[simp] theorem install_inPort (s : State) (image : List Byte) : (s.install image).inPort = s.inPort := rfl
@[simp] theorem install_outPort (s : State) (image : List Byte) : (s.install image).outPort = s.outPort := rfl
@[simp] theorem install_pc (s : State) (image : List Byte) : (s.install image).pc = recordCount image := rfl
@[simp] theorem install_pending (s : State) (image : List Byte) : (s.install image).pending = s.pending := rfl
@[simp] theorem install_replies (s : State) (image : List Byte) : (s.install image).replies = s.replies := rfl
@[simp] theorem install_draws (s : State) (image : List Byte) : (s.install image).draws = s.draws := rfl

/-! ## create -/

@[simp] theorem create_cfg (s : State) : (s.create).cfg = s.cfg := rfl
@[simp] theorem create_phase (s : State) : (s.create).phase = .created := rfl
@[simp] theorem create_imem (s : State) : (s.create).imem = [] := rfl
@[simp] theorem create_mem (s : State) : (s.create).mem = [] := rfl
@[simp] theorem create_status (s : State) : (s.create).status = s.statusAtCreate := rfl
@[simp] theorem create_inPort (s : State) : (s.create).inPort = [] := rfl
@[simp] theorem create_outPort (s : State) : (s.create).outPort = [] := rfl
@[simp] theorem create_pc (s : State) : (s.create).pc = 0 := rfl
@[simp] theorem create_pending (s : State) : (s.create).pending = s.pending := rfl
@[simp] theorem create_replies (s : State) : (s.create).replies = s.replies := rfl

/-! ## reset (10_state.md R31) -/

@[simp] theorem reset_cfg : reset.cfg = Config.reference := rfl
@[simp] theorem reset_phase : reset.phase = .created := rfl
@[simp] theorem reset_imem : reset.imem = [] := rfl
@[simp] theorem reset_mem : reset.mem = [] := rfl
@[simp] theorem reset_status : reset.status = false := rfl
@[simp] theorem reset_inPort : reset.inPort = [] := rfl
@[simp] theorem reset_outPort : reset.outPort = [] := rfl
@[simp] theorem reset_pc : reset.pc = 0 := rfl
@[simp] theorem reset_pending : reset.pending = [] := rfl
@[simp] theorem reset_replies : reset.replies = [] := rfl

end Sys2Proof.Machine.State
end

