-- ==== Sys2Proof/Laws/Ops.lean ====
section
/-! SUPPORT. One lemma for each shared operation: everything it can do. -/

namespace Sys2Proof.Machine

/-! ## The own slot -/

/-- `writeSlot` answers a next state exactly where the slot exists, and then this one. -/
theorem State.writeSlot_next {s t : State} {v : F64} (h : s.writeSlot v = .next t) :
    s.pc < s.cfg.memCapacity ∧ t = { s with mem := s.mem.write s.pc v }.advance := by
  unfold State.writeSlot at h
  split at h
  · cases h; exact ⟨‹_›, rfl⟩
  · cases h

theorem State.writeSlot_of_lt {s : State} (h : s.pc < s.cfg.memCapacity) (v : F64) :
    s.writeSlot v = .next { s with mem := s.mem.write s.pc v }.advance := if_pos h

/-- `writeSlot` never refuses, and faults only where the slot does not exist. -/
theorem State.writeSlot_cases (s : State) (v : F64) :
    s.writeSlot v = .next { s with mem := s.mem.write s.pc v }.advance ∨
      (s.cfg.memCapacity ≤ s.pc ∧ s.writeSlot v = .fault .slotOutsideMemory) := by
  unfold State.writeSlot
  split
  · exact .inl rfl
  · exact .inr ⟨by omega, rfl⟩

/-- Where the slot exists, `writeSlot` completes and writes the own slot alone. -/
theorem State.writeSlot_slotWritten {s : State} (h : s.CanWriteSlot) (v : F64) :
    ∃ t, s.writeSlot v = .next t ∧ SlotWritten s t v ∧ t.draws = s.draws :=
  ⟨_, s.writeSlot_of_lt h.slot_exists v,
    { pc := rfl, cfg := rfl, phase := rfl, imem := rfl, inPort := rfl, pending := rfl, replies := rfl
      slot := Memory.read_write_same h.mem_wf _ _
      others := fun _ ha => Memory.read_write_other h.mem_wf ha _
      status := rfl, outPort := rfl }, rfl⟩

theorem State.freeNaN_isNaN (s : State) : s.freeNaN.isNaN = true := F64.nanPattern_isNaN _ _

/-- Where the slot exists, `writeResult` completes and writes the result. -/
theorem State.writeResult_resultWritten {s : State} (h : s.CanWriteSlot) (r : FpResult) :
    ∃ t, s.writeResult r = .next t ∧ ResultWritten s t r := by
  cases r with
  | value v => exact s.writeSlot_slotWritten h v
  | nan =>
    have h' : s.draw.CanWriteSlot := ⟨h.slot_exists, h.mem_wf⟩
    obtain ⟨t, ht, hw, hd⟩ := State.writeSlot_slotWritten h' s.freeNaN
    exact ⟨t, ht, s.freeNaN, s.freeNaN_isNaN, ⟨⟨hw.pc, hw.cfg, hw.phase, hw.imem, hw.inPort, hw.pending, hw.replies⟩,
      hw.slot, hw.others, hw.status, hw.outPort⟩, hd⟩

/-- What `writeResult` writes: some value in the own slot, and at most one draw used up. -/
theorem State.writeResult_cases (s : State) (r : FpResult) :
    (∃ v d, s.writeResult r = .next { s with mem := s.mem.write s.pc v, draws := d }.advance) ∨
      (s.cfg.memCapacity ≤ s.pc ∧ s.writeResult r = .fault .slotOutsideMemory) := by
  cases r with
  | value v => exact (s.writeSlot_cases v).imp_left fun h => ⟨v, s.draws, h⟩
  | nan => exact (s.draw.writeSlot_cases s.freeNaN).imp_left fun h => ⟨_, _, h⟩

/-! ## The other destinations -/

theorem State.writePort_portWritten {s : State} (h : s.outPort.wf) (p : Addr) (v : F64) :
    PortWritten s (s.writePort p v) (addrIndex p) v where
  pc := rfl
  cfg := rfl
  phase := rfl
  imem := rfl
  inPort := rfl
  pending := rfl
  replies := rfl
  port_ := Memory.read_write_same h _ _
  others := fun _ hq => Memory.read_write_other h hq _
  mem := rfl
  status := rfl
  draws := rfl

theorem State.compareZero_statusWritten (s : State) (r : Relation) (src : Addr) :
    StatusWritten s (s.compareZero r src) (r.holdsOfZero (s.slotOperand src)) :=
  ⟨⟨rfl, rfl, rfl, rfl, rfl, rfl, rfl⟩, rfl, rfl, rfl, rfl⟩

theorem State.advance_onlyAdvanced (s : State) : OnlyAdvanced s s.advance :=
  ⟨⟨rfl, rfl, rfl, rfl, rfl, rfl, rfl⟩, rfl, rfl, rfl, rfl⟩

/-! ## Operands -/

theorem addrIndex_lt (a : Addr) : addrIndex a < 16384 := a.isLt

/-! ## Fetch (43_sequencer_and_host.md R150) -/

/-- A line is fetched exactly in phase ready below `N`. -/
theorem State.fetch_eq_some {s : State} {w : Word} :
    s.fetch = some w ↔ s.phase = .ready ∧ s.imem[s.pc]? = some w := by
  unfold State.fetch
  cases s.phase <;> simp

theorem State.fetch_pc_lt {s : State} {w : Word} (h : s.fetch = some w) : s.pc < s.n := by
  obtain ⟨-, h⟩ := State.fetch_eq_some.1 h
  exact (List.getElem?_eq_some_iff.1 h).1

theorem State.fetch_mem {s : State} {w : Word} (h : s.fetch = some w) : w ∈ s.imem :=
  List.mem_of_getElem? (State.fetch_eq_some.1 h).2

/-- Between cycles no line is fetched. -/
theorem State.fetch_none_of_le {s : State} (h : s.n ≤ s.pc) : s.fetch = none := by
  unfold State.fetch
  cases s.phase <;> simp [List.getElem?_eq_none_iff.2 h]

end Sys2Proof.Machine
end

