-- ==== Sys2Proof/Laws/Load.lean ====
section
/-! SUPPORT. Laws of the load procedure and of the host operations: each says once everything its operation can
do. -/

namespace Sys2Proof.Machine

/-! ## Records (20_memory.md R52, R55) -/

@[simp] theorem imageWords_length (e : Endian) (image : List Byte) :
    (imageWords e image).length = recordCount image := by simp [imageWords]

@[simp] theorem imageConstants_length (e : Endian) (image : List Byte) :
    (imageConstants e image).length = recordCount image := by simp [imageConstants]

theorem imageWords_getElem? (e : Endian) (image : List Byte) {i : Nat} (h : i < recordCount image) :
    (imageWords e image)[i]? = some (recordWord e image i) := by
  simp [imageWords, h]

theorem imageConstants_getElem (e : Endian) (image : List Byte) {i : Nat} (h : i < (imageConstants e image).length) :
    (imageConstants e image)[i] = recordConstant e image i := by
  simp [imageConstants]

/-! ## The checks (60_exceptions.md R183) -/

/-- An image passes the checks exactly when it fits and, under INVALID_POLICY = refuse, holds no undefined word. -/
theorem loadCheck_ok {c : Config} {source : ByteSource} {image : List Byte}
    (h : loadCheck c source = .ok image) :
    source = .bytes image ∧ recordCount image ≤ c.memCapacity ∧
      (c.invalidPolicy = .refuse → ∀ w ∈ imageWords c.imageEndian image, (decode c.opcodes w).isInvalid = false) := by
  cases source with
  | unreadable => simp [loadCheck] at h
  | bytes b =>
    simp only [loadCheck] at h
    split_ifs at h with h1 h2
    cases h
    refine ⟨rfl, by omega, fun hp w hw => ?_⟩
    by_contra hne
    exact h2 ⟨hp, List.any_eq_true.2 ⟨w, hw, by simpa using hne⟩⟩

theorem loadCheck_of_fits {c : Config} {image : List Byte} (h1 : recordCount image ≤ c.memCapacity)
    (h2 : c.invalidPolicy = .refuse → ∀ w ∈ imageWords c.imageEndian image, (decode c.opcodes w).isInvalid = false) :
    loadCheck c (.bytes image) = .ok image := by
  rw [loadCheck, if_neg (by omega), if_neg]
  rintro ⟨hp, ha⟩
  obtain ⟨w, hw, hi⟩ := List.any_eq_true.1 ha
  rw [h2 hp w hw] at hi
  cases hi

/-- load either changes nothing but what the host is told, or installs an image that passed the checks. -/
theorem State.load_cases (s : State) (source : ByteSource) :
    (∃ e, loadCheck s.cfg source = .error e ∧ s.load source = s.reply (.loadError e)) ∨
      (∃ image, loadCheck s.cfg source = .ok image ∧ s.load source = (s.install image).reply .loadOk) := by
  unfold State.load
  cases h : loadCheck s.cfg source with
  | error e => exact .inl ⟨e, rfl, rfl⟩
  | ok image => exact .inr ⟨image, rfl, rfl⟩

/-- What the data memory holds after an image is installed over an empty one. -/
theorem State.install_read (s : State) (h : s.mem.wf) (image : List Byte) (a : Nat) :
    (s.install image).mem.read a =
      if a < recordCount image then recordConstant s.cfg.imageEndian image a else s.mem.read a := by
  rw [State.install_mem, Memory.read_writeFrom h]
  by_cases ha : a < recordCount image
  · rw [dif_pos ⟨by omega, by simpa using ha⟩, if_pos ha, imageConstants_getElem]; rfl
  · rw [dif_neg (by simpa using ha), if_neg ha]

/-! ## Host operations (43_sequencer_and_host.md R160) -/

/-- Everything a host operation that is admitted can do. -/
theorem hostOp_next {op : HostOp} {s t : State} (h : hostOp op s = .next t) :
    s.fetch = none ∧
    ((op = .create ∧ t = s.create) ∨
     (∃ source, op = .load source ∧ s.phase = .created ∧ t = s.load source) ∨
     (∃ source, op = .load source ∧ s.phase = .ready ∧ s.cfg.reloadPolicy = .fresh ∧ t = s.create.load source) ∨
     (op = .runCycle ∧ s.phase = .created ∧ s.cfg.runWhenCreated = .noop ∧ t = s) ∨
     (op = .runCycle ∧ s.phase = .created ∧ s.cfg.runWhenCreated = .error ∧ t = s.reply .runError) ∨
     (op = .runCycle ∧ s.phase = .ready ∧ t = { s with pc := 0 }) ∨
     (∃ port v, op = .writeInput port v ∧ s.phase ≠ .destroyed ∧ port < Config.portCount ∧
        t = { s with inPort := s.inPort.write port v }) ∨
     (∃ port, op = .readOutput port ∧ s.phase ≠ .destroyed ∧ port < Config.portCount ∧
        t = s.reply (.output (s.outPort.read port))) ∨
     (op = .destroy ∧ s.phase ≠ .destroyed ∧ t = { s with phase := .destroyed })) := by
  unfold hostOp at h
  cases hf : s.fetch with
  | some w => simp [hf] at h
  | none =>
    simp only [hf, Option.isSome_none, Bool.false_eq_true, if_false] at h
    refine ⟨rfl, ?_⟩
    cases op with
    | create => cases h; simp
    | load source =>
      unfold hostLoad at h
      cases hp : s.phase <;> cases hr : s.cfg.reloadPolicy <;> simp only [hp, hr] at h <;> cases h <;> simp
    | runCycle =>
      unfold hostRunCycle at h
      cases hp : s.phase <;> cases hr : s.cfg.runWhenCreated <;> simp only [hp, hr] at h <;> cases h <;> simp
    | writeInput port v =>
      unfold hostWriteInput at h
      cases hp : s.phase <;> simp only [hp] at h
      · split_ifs at h with hlt; cases h; simp [hlt]
      · split_ifs at h with hlt; cases h; simp [hlt]
      · cases h
    | readOutput port =>
      unfold hostReadOutput at h
      cases hp : s.phase <;> simp only [hp] at h
      · split_ifs at h with hlt; cases h; simp [hlt]
      · split_ifs at h with hlt; cases h; simp [hlt]
      · cases h
    | destroy =>
      unfold hostDestroy at h
      cases hp : s.phase <;> simp only [hp] at h <;> cases h <;> simp

/-- No host operation faults. -/
theorem hostOp_ne_fault (op : HostOp) (s : State) (r : Fault) : hostOp op s ≠ .fault r := by
  intro h
  unfold hostOp at h
  split at h
  · cases h
  · cases op <;> simp only [hostLoad, hostRunCycle, hostWriteInput, hostReadOutput, hostDestroy] at h <;>
      (repeat' split at h) <;> cases h

end Sys2Proof.Machine
end

