-- ==== Sys2Proof/Laws/Exec.lean ====
section
/-! SUPPORT. What one instruction can do, said once for all of them, and what one step can do. -/

namespace Sys2Proof.Machine

/-- Everything an instruction can do: write its own slot, write one output port, write the flag, only advance, or
stop (43_sequencer_and_host.md R154). -/
inductive ExecDoes (i : Instr) (s : State) : Prop where
  | slot (v : F64) (d : Nat) (hi : writesSlot i = true)
      (h : exec i s = .next { s with mem := s.mem.write s.pc v, draws := d }.advance)
  | noSlot (hi : writesSlot i = true) (hpc : s.cfg.memCapacity ≤ s.pc) (h : exec i s = .fault .slotOutsideMemory)
  | port (p b : Addr) (hi : i = .output p b) (h : exec i s = .next (s.writePort p (s.slotOperand b)))
  | flag (b : Bool) (hi : writesStatus i = true) (h : exec i s = .next (s.setStatus b))
  | advance (hs : writesStatus i = false) (hp : writesPort i = none) (h : exec i s = .next s.advance)
  | refuse (hi : i.isInvalid = true) (hp : s.cfg.invalidPolicy = .refuse) (h : exec i s = .refused .invalidLine)

theorem ExecDoes.of_writeResult {i : Instr} {s : State} {r : FpResult} (hi : writesSlot i = true)
    (h : exec i s = s.writeResult r) : ExecDoes i s := by
  rcases s.writeResult_cases r with ⟨v, d, hr⟩ | ⟨hpc, hr⟩
  · exact .slot v d hi (h.trans hr)
  · exact .noSlot hi hpc (h.trans hr)

theorem ExecDoes.of_writeSlot {i : Instr} {s : State} {v : F64} (hi : writesSlot i = true)
    (h : exec i s = s.writeSlot v) : ExecDoes i s := by
  rcases s.writeSlot_cases v with hr | ⟨hpc, hr⟩
  · exact .slot v s.draws hi (h.trans hr)
  · exact .noSlot hi hpc (h.trans hr)

theorem ExecDoes.of_invalidLine {i : Instr} {s : State} (hi : i.isInvalid = true) (hs : writesStatus i = false)
    (hp : writesPort i = none) (h : exec i s = s.invalidLine) : ExecDoes i s := by
  unfold State.invalidLine at h
  cases hpol : s.cfg.invalidPolicy <;> rw [hpol] at h
  · exact .refuse hi hpol h
  · exact .advance hs hp h

theorem execDoes (i : Instr) (s : State) : ExecDoes i s := by
  cases i with
  | add a b => exact .of_writeResult rfl rfl
  | sub a b => exact .of_writeResult rfl rfl
  | mult a b => exact .of_writeResult rfl rfl
  | div a b =>
    by_cases h : (s.slotOperand b).feq0 = true
    · exact .advance rfl rfl (by rw [exec, execDiv, if_pos h])
    · exact .of_writeResult (r := numerics.fdiv (s.slotOperand a) (s.slotOperand b)) rfl
        (by rw [exec, execDiv, if_neg h])
  | output p b => exact .port p b rfl rfl
  | select a b => exact .of_writeSlot rfl rfl
  | noop m t im src => exact .advance rfl rfl rfl
  | compareZeroLt t im src => exact .flag _ rfl rfl
  | compareZeroLe t im src => exact .flag _ rfl rfl
  | compareZeroEq t im src => exact .flag _ rfl rfl
  | compareZeroGe t im src => exact .flag _ rfl rfl
  | compareZeroGt t im src => exact .flag _ rfl rfl
  | sqrt m t im src => exact .of_writeResult rfl rfl
  | copy m t im src => exact .of_writeSlot rfl rfl
  | readInput m t im p => exact .of_writeSlot rfl rfl
  | invalidPrimary7 a b => exact .of_invalidLine rfl rfl rfl rfl
  | invalidPrimary8to15 p a b => exact .of_invalidLine rfl rfl rfl rfl
  | invalidSecondary5 m t im src => exact .of_invalidLine rfl rfl rfl rfl
  | invalidSecondary6to7 o m t im src => exact .of_invalidLine rfl rfl rfl rfl
  | invalidSecondary8to15 o m t im src => exact .of_invalidLine rfl rfl rfl rfl
  | invalidCompareMode5 t im src => exact .of_invalidLine rfl rfl rfl rfl
  | invalidCompareMode6to7 m t im src => exact .of_invalidLine rfl rfl rfl rfl

/-! ## One step -/

/-- A step executes the fetched line, or is the host's turn. -/
theorem step_of_fetch {s : State} {w : Word} (h : s.fetch = some w) : step s = exec (decode s.cfg.opcodes w) s := by
  rw [step, h]

theorem step_of_fetch_none {s : State} (h : s.fetch = none) : step s = hostTurn s := by
  rw [step, h]

theorem step_idle {s : State} (h : s.fetch = none) (hp : s.pending = []) : step s = .next s := by
  rw [step_of_fetch_none h, hostTurn, hp]

theorem step_host {s : State} {op : HostOp} {rest : List HostOp} (h : s.fetch = none)
    (hp : s.pending = op :: rest) : step s = hostOp op { s with pending := rest } := by
  rw [step_of_fetch_none h, hostTurn, hp]

/-! ## Runs -/

theorem run_zero (s : State) : Host.Core.run Sys2Proof.core 0 s = .next s := rfl

theorem coreRun_of_next {M : Host.Core} {k : Nat} {s t : M.State} (h : M.step s = .next t) :
    M.run (k + 1) s = M.run k t := by
  rw [Host.Core.run, h]

/-- A run goes on from the state its first step answers. -/
theorem run_of_next {k : Nat} {s t : State} (h : step s = .next t) :
    Host.Core.run Sys2Proof.core (k + 1) s = Host.Core.run Sys2Proof.core k t :=
  coreRun_of_next (M := Sys2Proof.core) h

end Sys2Proof.Machine
end

