-- ==== Sys2Proof/Laws/PerInstr.lean ====
section
/-! SUPPORT. The opcode table row by row (spec/30_encoding.md R78; spec/opcode_table.json): the word of a
well-formed instruction lies in the row its constructor names. -/

namespace Sys2Proof.Laws

/-- A mask of the bits from `k` up keeps the number above bit `k`. -/
theorem and_highMask_toNat (w : Word) (k : Nat) :
    (w &&& (BitVec.allOnes 32 <<< k)).toNat = w.toNat / 2 ^ k * 2 ^ k := by
  have h : w &&& (BitVec.allOnes 32 <<< k) = (w >>> k) <<< k := by
    ext i hi
    simp only [BitVec.getElem_and, BitVec.getElem_shiftLeft, BitVec.getElem_allOnes]
    by_cases hik : i < k
    · simp [hik]
    · simp only [hik, decide_false, Bool.not_false, Bool.true_and, Bool.and_true]
      rw [BitVec.getElem_ushiftRight, ← BitVec.getLsbD_eq_getElem]
      congr 1; omega
  rw [h, BitVec.toNat_shiftLeft, BitVec.toNat_ushiftRight, Nat.shiftRight_eq_div_pow, Nat.shiftLeft_eq]
  exact Nat.mod_eq_of_lt (lt_of_le_of_lt (Nat.div_mul_le_self _ _) w.isLt)

/-- A word matches a row exactly when its number above the mask's lowest bit is the row's. -/
theorem and_mask_eq (w mask val : Word) (k v : Nat) (hm : mask = BitVec.allOnes 32 <<< k)
    (hv : val.toNat = v * 2 ^ k) : w &&& mask = val ↔ w.toNat / 2 ^ k = v := by
  rw [hm, ← BitVec.toNat_inj, and_highMask_toNat, hv]
  exact ⟨fun h => Nat.eq_of_mul_eq_mul_right (by positivity) h, fun h => by rw [h]⟩

namespace MatchesRow

/-- The mask column of the row (30_encoding.md R78). -/
def mask : Instr → Word
  | .add _ _ | .sub _ _ | .mult _ _ | .div _ _ | .output _ _ | .select _ _ => 0xF0000000
  | .noop _ _ _ _ => 0xFF000000
  | .compareZeroLt _ _ _ | .compareZeroLe _ _ _ | .compareZeroEq _ _ _ => 0xFFE00000
  | .compareZeroGe _ _ _ | .compareZeroGt _ _ _ => 0xFFE00000
  | .sqrt _ _ _ _ | .copy _ _ _ _ | .readInput _ _ _ _ => 0xFF000000
  | .invalidPrimary7 _ _ => 0xF0000000
  | .invalidPrimary8to15 _ _ _ => 0x80000000
  | .invalidSecondary5 _ _ _ _ => 0xFF000000
  | .invalidSecondary6to7 _ _ _ _ _ => 0xFE000000
  | .invalidSecondary8to15 _ _ _ _ _ => 0xF8000000
  | .invalidCompareMode5 _ _ _ => 0xFFE00000
  | .invalidCompareMode6to7 _ _ _ _ => 0xFFC00000

/-- The match column of the row (30_encoding.md R78). -/
def value : Instr → Word
  | .add _ _ => 0x10000000
  | .sub _ _ => 0x20000000
  | .mult _ _ => 0x30000000
  | .div _ _ => 0x40000000
  | .output _ _ => 0x50000000
  | .select _ _ => 0x60000000
  | .noop _ _ _ _ => 0x00000000
  | .compareZeroLt _ _ _ => 0x01000000
  | .compareZeroLe _ _ _ => 0x01200000
  | .compareZeroEq _ _ _ => 0x01400000
  | .compareZeroGe _ _ _ => 0x01600000
  | .compareZeroGt _ _ _ => 0x01800000
  | .sqrt _ _ _ _ => 0x02000000
  | .copy _ _ _ _ => 0x03000000
  | .readInput _ _ _ _ => 0x04000000
  | .invalidPrimary7 _ _ => 0x70000000
  | .invalidPrimary8to15 _ _ _ => 0x80000000
  | .invalidSecondary5 _ _ _ _ => 0x05000000
  | .invalidSecondary6to7 _ _ _ _ _ => 0x06000000
  | .invalidSecondary8to15 _ _ _ _ _ => 0x08000000
  | .invalidCompareMode5 _ _ _ => 0x01A00000
  | .invalidCompareMode6to7 _ _ _ _ => 0x01C00000

/-- Under the reference tables the word of a well-formed instruction lies in its row: `w AND mask = match`
(30_encoding.md R78). -/
def Statement (i : Instr) : Prop :=
  i.wellFormed .reference = true → encode .reference i &&& mask i = value i

theorem ofD {p : BitVec 4} {a b : Addr} {m v : Word} (k n : Nat) (hm : m = BitVec.allOnes 32 <<< k)
    (hv : v.toNat = n * 2 ^ k) (h : (p.toNat * 2 ^ 28 + a.toNat * 2 ^ 14 + b.toNat) / 2 ^ k = n) :
    encodeD p a b &&& m = v := (and_mask_eq _ m v k n hm hv).2 (by rw [encodeD_toNat, h])

theorem ofS {o : BitVec 4} {md : BitVec 3} {t : BitVec 1} {im : BitVec 6} {s : Addr} {m v : Word} (k n : Nat)
    (hm : m = BitVec.allOnes 32 <<< k) (hv : v.toNat = n * 2 ^ k)
    (h : (o.toNat * 2 ^ 24 + md.toNat * 2 ^ 21 + t.toNat * 2 ^ 20 + im.toNat * 2 ^ 14 + s.toNat) / 2 ^ k = n) :
    encodeS o md t im s &&& m = v := (and_mask_eq _ m v k n hm hv).2 (by rw [encodeS_toNat, h])

theorem ofD28 {p : BitVec 4} (a b : Addr) {v : Word} (n : Nat) (hv : v.toNat = n * 2 ^ 28) (hp : p.toNat = n) :
    encodeD p a b &&& 0xF0000000 = v :=
  ofD 28 n (by decide) hv (by have := a.isLt; have := b.isLt; omega)

theorem ofS24 {o : BitVec 4} (md : BitVec 3) (t : BitVec 1) (im : BitVec 6) (s : Addr) {v : Word} (n : Nat)
    (hv : v.toNat = n * 2 ^ 24) (ho : o.toNat = n) : encodeS o md t im s &&& 0xFF000000 = v :=
  ofS 24 n (by decide) hv (by have := md.isLt; have := t.isLt; have := im.isLt; have := s.isLt; omega)

theorem ofS21 {md : BitVec 3} (t : BitVec 1) (im : BitVec 6) (s : Addr) {v : Word} (n : Nat)
    (hv : v.toNat = (8 + n) * 2 ^ 21) (hm : md.toNat = n) :
    encodeS Opcode.compareZero md t im s &&& 0xFFE00000 = v :=
  ofS 21 (8 + n) (by decide) hv (by
    have := t.isLt; have := im.isLt; have := s.isLt
    have : Opcode.compareZero.toNat = 1 := rfl
    omega)

theorem add (a b) : Statement (.add a b) := fun _ => ofD28 a b 1 rfl rfl
theorem sub (a b) : Statement (.sub a b) := fun _ => ofD28 a b 2 rfl rfl
theorem mult (a b) : Statement (.mult a b) := fun _ => ofD28 a b 3 rfl rfl
theorem div (a b) : Statement (.div a b) := fun _ => ofD28 a b 4 rfl rfl
theorem output (p b) : Statement (.output p b) := fun _ => ofD28 p b 5 rfl rfl
theorem select (a b) : Statement (.select a b) := fun _ => ofD28 a b 6 rfl rfl
theorem noop (m t im s) : Statement (.noop m t im s) := fun _ => ofS24 m t im s 0 rfl rfl
theorem compareZeroLt (t im s) : Statement (.compareZeroLt t im s) := fun _ => ofS21 t im s 0 rfl rfl
theorem compareZeroLe (t im s) : Statement (.compareZeroLe t im s) := fun _ => ofS21 t im s 1 rfl rfl
theorem compareZeroEq (t im s) : Statement (.compareZeroEq t im s) := fun _ => ofS21 t im s 2 rfl rfl
theorem compareZeroGe (t im s) : Statement (.compareZeroGe t im s) := fun _ => ofS21 t im s 3 rfl rfl
theorem compareZeroGt (t im s) : Statement (.compareZeroGt t im s) := fun _ => ofS21 t im s 4 rfl rfl
theorem sqrt (m t im s) : Statement (.sqrt m t im s) := fun _ => ofS24 m t im s 2 rfl rfl
theorem copy (m t im s) : Statement (.copy m t im s) := fun _ => ofS24 m t im s 3 rfl rfl
theorem readInput (m t im p) : Statement (.readInput m t im p) := fun _ => ofS24 m t im p 4 rfl rfl
theorem invalidPrimary7 (a b) : Statement (.invalidPrimary7 a b) := fun _ => ofD28 a b 7 rfl rfl

theorem invalidPrimary8to15 (p a b) : Statement (.invalidPrimary8to15 p a b) := fun h =>
  ofD (m := 0x80000000) 31 1 (by decide) rfl (by
    have := (reference_invalidPrimary8to15 p).1 (of_decide_eq_true h); have := p.isLt; have := a.isLt; have := b.isLt; omega)

theorem invalidSecondary5 (m t im s) : Statement (.invalidSecondary5 m t im s) := fun _ => ofS24 m t im s 5 rfl rfl

theorem invalidSecondary6to7 (o m t im s) : Statement (.invalidSecondary6to7 o m t im s) := fun h =>
  ofS (m := 0xFE000000) 25 3 (by decide) rfl (by
    have := (reference_invalidSecondary6to7 o).1 (of_decide_eq_true h); have := m.isLt; have := t.isLt; have := im.isLt; have := s.isLt; omega)

theorem invalidSecondary8to15 (o m t im s) : Statement (.invalidSecondary8to15 o m t im s) := fun h =>
  ofS (m := 0xF8000000) 27 1 (by decide) rfl (by
    have := (reference_invalidSecondary8to15 o).1 (of_decide_eq_true h)
    have := o.isLt; have := m.isLt; have := t.isLt; have := im.isLt; have := s.isLt; omega)

theorem invalidCompareMode5 (t im s) : Statement (.invalidCompareMode5 t im s) := fun _ => ofS21 t im s 5 rfl rfl

theorem invalidCompareMode6to7 (m t im s) : Statement (.invalidCompareMode6to7 m t im s) := fun h =>
  ofS (m := 0xFFC00000) 22 7 (by decide) rfl (by
    have := (reference_invalidCompareMode6to7 m).1 (of_decide_eq_true h); have := m.isLt; have := t.isLt; have := im.isLt; have := s.isLt
    have : OpcodeTables.reference.secondary.compareZero.toNat = 1 := rfl
    omega)

end MatchesRow

end Sys2Proof.Laws
end

