-- ==== Sys2Proof/Laws/Rounding.lean ====
section
/-! SUPPORT. A rounded magnitude under a sign is the rounded value (spec/40_dform_arithmetic.md R101), and a finite
magnitude rounds to itself. -/

namespace Sys2Proof.F64

/-! ## The unit -/

theorem shiftLeft_unitsPerOne (n : Nat) : n <<< 1074 = n * unitsPerOne := by
  unfold unitsPerOne
  rw [Nat.shiftLeft_eq, Nat.shiftLeft_eq 1, Nat.one_mul]

theorem unitsPerOne_pos : 0 < unitsPerOne := by unfold unitsPerOne; rw [Nat.shiftLeft_eq]; positivity

/-! ## Packed rounded magnitudes -/

theorem units_posZero : units posZero = 0 := by decide

theorem posZero_isFinite : isFinite posZero = true := by decide

theorem roundBits_eq_or_lt (num den : Nat) : roundBits num den = infBits ∨ roundBits num den < infBits := by
  have := roundBits_le num den; omega

theorem pack_infBits_isInf (neg : Bool) : (pack neg infBits).isInf = true := by cases neg <;> decide

theorem roundBits_lt_of_isFinite {neg : Bool} {num den : Nat} (h : (pack neg (roundBits num den)).isFinite = true) :
    roundBits num den < infBits := by
  rcases roundBits_eq_or_lt num den with h' | h'
  · rw [h'] at h
    have := isFinite_not_isInf h
    rw [pack_infBits_isInf] at this; cases this
  · exact h'

/-- A value of the sign of `num`, or a zero, is as far from `num` as the magnitudes are. -/
theorem distance_same_sign {neg : Bool} {num : Int} {den m : Nat}
    (hneg : neg = true → num ≤ 0) (hpos : neg = false → 0 ≤ num) :
    |(if neg then -(m : Int) else (m : Int)) * den - num| = |(m : Int) * den - (num.natAbs : Int)| := by
  cases neg with
  | false =>
    rw [Int.natAbs_of_nonneg (hpos rfl)]; rfl
  | true =>
    have e : num = -(num.natAbs : Int) := by have := hneg rfl; omega
    rw [show (if true = true then -(m : Int) else (m : Int)) * den - num = -((m : Int) * den - (num.natAbs : Int)) by
      rw [if_pos rfl]; generalize (num.natAbs : Int) = x at *; subst e; ring, abs_neg]

/-- A value of the other sign is farther by twice its own magnitude, so it is no nearer than zero. -/
theorem distance_other_sign {neg : Bool} {num : Int} {den m : Nat}
    (hneg : neg = true → num ≤ 0) (hpos : neg = false → 0 ≤ num) :
    |(if neg then (m : Int) else -(m : Int)) * den - num| = (m : Int) * den + (num.natAbs : Int) := by
  have hm : 0 ≤ (m : Int) * den := by positivity
  cases neg with
  | false =>
    have := hpos rfl
    rw [if_neg (by decide), show -(m : Int) * den - num = -((m : Int) * den + num) by ring, abs_neg,
      abs_of_nonneg (by omega)]
    omega
  | true =>
    have := hneg rfl
    rw [if_pos rfl, abs_of_nonneg (by omega)]; omega

/-- `roundBits` under a sign is the rounded value of that sign. -/
theorem pack_roundBits_roundsTo (neg : Bool) (num : Int) {den : Nat} (hd : 0 < den)
    (hneg : neg = true → num ≤ 0) (hpos : neg = false → 0 ≤ num) :
    RoundsTo (pack neg (roundBits num.natAbs den)) num den := by
  have hlt := roundBits_lt num.natAbs den
  have hsign := pack_sign neg hlt
  have far : ∀ c : F64, |(c.units : Int) * den - num.natAbs| ≤ |c.signedUnits * den - num| := by
    intro c
    by_cases hc : c.sign = neg
    · rw [signedUnits, hc, distance_same_sign hneg hpos]
    · have : c.signedUnits = if neg then (c.units : Int) else -(c.units : Int) := by
        rw [signedUnits]; cases neg <;> simp_all
      rw [this, distance_other_sign hneg hpos]
      have hm : 0 ≤ (c.units : Int) * den := by positivity
      rw [abs_le]; omega
  refine ⟨?_, ?_, ?_, ?_, ?_, ?_⟩
  · rcases roundBits_eq_or_lt num.natAbs den with h | h
    · rw [h]; cases neg <;> decide
    · exact isFinite_not_isNaN (pack_isFinite neg h)
  · rw [← roundBits_inf hd]
    constructor
    · intro h
      rcases roundBits_eq_or_lt num.natAbs den with h' | h'
      · exact h'
      · rw [isFinite_not_isInf (pack_isFinite neg h')] at h; cases h
    · intro h; rw [h]; exact pack_infBits_isInf neg
  · intro h; rw [hsign]; cases neg
    · have := hpos rfl; omega
    · rfl
  · intro h; rw [hsign]; cases neg
    · rfl
    · have := hneg rfl; omega
  · intro h c _
    have hf := roundBits_lt_of_isFinite h
    rw [signedUnits_pack neg hlt, distance_same_sign hneg hpos]
    exact ((roundBits_nearest hd hf c).1).trans (far c)
  · intro h c _ he hne
    have hf := roundBits_lt_of_isFinite h
    rw [pack_fraction neg hlt, Nat.mod_mod_of_dvd _ (by decide)]
    rw [signedUnits_pack neg hlt] at hne
    rw [signedUnits_pack neg hlt, distance_same_sign hneg hpos] at he
    by_cases hc : c.sign = neg
    · rw [signedUnits, hc] at hne
      rw [signedUnits, hc, distance_same_sign hneg hpos] at he
      refine (roundBits_nearest hd hf c).2 he fun hu => hne ?_
      rw [hu]
    · have hcu : c.signedUnits = if neg then (c.units : Int) else -(c.units : Int) := by
        rw [signedUnits]; cases neg <;> simp_all
      rw [hcu] at hne
      rw [hcu, distance_other_sign hneg hpos] at he
      obtain ⟨z1, z2⟩ := roundBits_nearest hd hf posZero
      rw [units_posZero] at z1 z2
      have hz : |((0 : Nat) : Int) * den - num.natAbs| = num.natAbs := by
        rw [Nat.cast_zero, zero_mul, zero_sub, abs_neg, abs_of_nonneg (by omega)]
      rw [hz] at z1 z2
      have hm : 0 ≤ (c.units : Int) * den := by positivity
      have h0 : (c.units : Int) * den = 0 := by omega
      have h0' : c.units = 0 := by
        rcases Int.mul_eq_zero.1 h0 with h | h
        · exact_mod_cast h
        · omega
      refine z2 (by omega) fun hmag => hne ?_
      rw [← hmag, h0']; cases neg <;> rfl

/-- `log2` of a significand at a place. -/
theorem log2_place {n k : Nat} (h1 : 4503599627370496 ≤ n) (h2 : n < 9007199254740992) :
    (n * 2 ^ k).log2 = 52 + k := by
  have hne : n * 2 ^ k ≠ 0 := by positivity
  rw [Nat.log2_eq_iff hne]
  rw [Nat.pow_add, Nat.pow_add, Nat.pow_add]
  constructor
  · exact Nat.mul_le_mul_right _ (by omega)
  · calc n * 2 ^ k < 9007199254740992 * 2 ^ k := Nat.mul_lt_mul_of_pos_right h2 (by positivity)
      _ = _ := by ring

theorem divNearestEven_mul (n : Nat) {d : Nat} (hd : 0 < d) : divNearestEven (n * d) d = n := by
  unfold divNearestEven
  rw [Nat.mul_div_cancel _ hd, Nat.mul_mod_left]
  simp [hd]

/-- A finite magnitude rounds to itself. -/
theorem roundBits_exact {v : F64} (h : v.isFinite = true) :
    roundBits v.units 1 = v.exponent * 4503599627370496 + v.fraction := by
  have hf := v.fraction_lt
  have he : v.exponent < 2047 := by
    have : v.exponent < 2048 := by rw [exponent_eq]; omega
    simp [isFinite] at h; omega
  have hlast : v.exponent * 4503599627370496 + v.fraction < infBits := by unfold infBits; omega
  rw [roundBits_eq, roundSignificand, roundPlace, Nat.div_one]
  by_cases h0 : v.exponent = 0
  · have hu : v.units = v.fraction := by simp [units, significand, scale, h0]
    have hk : v.units.log2 - 52 = 0 := by
      rw [hu]
      by_cases hz : v.fraction = 0
      · rw [hz]; rfl
      · have : v.fraction.log2 < 52 := (Nat.log2_lt hz).2 hf
        omega
    rw [hk, hu, Nat.shiftLeft_zero]
    have := divNearestEven_mul v.fraction (d := 1) (by decide)
    rw [Nat.mul_one] at this
    rw [this, h0]
    rw [h0] at hlast
    simp; omega
  · have hs : v.significand = 4503599627370496 + v.fraction := by simp [significand, h0]
    have hu : v.units = v.significand * 2 ^ v.scale := Nat.shiftLeft_eq _ _
    have hk : v.units.log2 - 52 = v.scale := by rw [hu, log2_place (by omega) (by omega)]; omega
    rw [hk, hu, Nat.shiftLeft_eq 1, Nat.one_mul, divNearestEven_mul _ (by positivity), hs, Nat.shiftLeft_eq]
    unfold scale
    have : (v.exponent - 1) * 2 ^ 52 + (4503599627370496 + v.fraction) = v.exponent * 4503599627370496 + v.fraction := by
      obtain ⟨e, he'⟩ := Nat.exists_eq_succ_of_ne_zero h0
      rw [he']; simp; ring
    rw [this]; omega

end Sys2Proof.F64
end

