-- ==== Sys2Proof/Laws/Sqrt.lean ====
section
/-! SUPPORT. Laws of `fsqrt`: the integer root, and that the result is a nearest magnitude to the exact root, ties
to even. -/

namespace Sys2Proof.F64

/-- `sqrtBits` finds the integer root, given that `acc` is right down to bit `b`. -/
theorem sqrtBits_spec (b acc y : Nat) (h1 : acc * acc ≤ y) (h2 : y < (acc + 2 ^ b) * (acc + 2 ^ b)) :
    sqrtBits b acc y * sqrtBits b acc y ≤ y ∧ y < (sqrtBits b acc y + 1) * (sqrtBits b acc y + 1) := by
  induction b generalizing acc with
  | zero => exact ⟨h1, by simpa [sqrtBits] using h2⟩
  | succ b ih =>
    have e : (1 : Nat) <<< b = 2 ^ b := by rw [Nat.shiftLeft_eq, Nat.one_mul]
    have e2 : 2 ^ (b + 1) = 2 ^ b + 2 ^ b := by rw [Nat.pow_succ]; ring
    simp only [sqrtBits, e]
    split
    · rename_i hc
      exact ih _ hc (by rw [e2] at h2; rwa [Nat.add_assoc])
    · rename_i hc
      exact ih _ h1 (by omega)

theorem significand_lt (v : F64) : v.significand < 9007199254740992 := by
  have := v.fraction_lt
  unfold significand; split <;> omega

/-- The square that `fsqrt` takes the root of. -/
def sqrtSquare (v : F64) : Nat := v.significand <<< ((v.scale + 1074) % 2 + 108)

/-- The integer root `fsqrt` takes. -/
def sqrtRoot (v : F64) : Nat := sqrtBits 82 0 v.sqrtSquare

/-- Twice the root, with the half below its last place where the root is no integer. -/
def sqrtTwice (v : F64) : Nat := 2 * v.sqrtRoot + (if v.sqrtRoot * v.sqrtRoot = v.sqrtSquare then 0 else 1)

/-- Twice the root in units of `2^-1074`. -/
def sqrtNum (v : F64) : Nat := v.sqrtTwice <<< ((v.scale + 1074) / 2 - 54)

theorem sqrtRoot_spec (v : F64) :
    v.sqrtRoot * v.sqrtRoot ≤ v.sqrtSquare ∧ v.sqrtSquare < (v.sqrtRoot + 1) * (v.sqrtRoot + 1) := by
  refine sqrtBits_spec 82 0 _ (by omega) ?_
  have hs := v.significand_lt
  have hp : 2 ^ ((v.scale + 1074) % 2 + 108) ≤ 2 ^ 109 := Nat.pow_le_pow_right (by omega) (by omega)
  rw [sqrtSquare, Nat.shiftLeft_eq]
  calc v.significand * 2 ^ ((v.scale + 1074) % 2 + 108)
      ≤ 9007199254740992 * 2 ^ 109 := Nat.mul_le_mul (by omega) hp
    _ < _ := by norm_num

theorem significand_pos {v : F64} (h : v.isZero = false) : 0 < v.significand := by
  unfold significand
  split
  · rename_i h0
    simp [isZero, h0] at h
    omega
  · omega

theorem sqrtRoot_ge {v : F64} (h : v.isZero = false) : 2 ^ 54 ≤ v.sqrtRoot := by
  by_contra hlt
  have h2 := (sqrtRoot_spec v).2
  have hs : 2 ^ 54 * 2 ^ 54 ≤ v.sqrtSquare := by
    rw [sqrtSquare, Nat.shiftLeft_eq, ← Nat.pow_add]
    calc 2 ^ (54 + 54) ≤ 2 ^ ((v.scale + 1074) % 2 + 108) := Nat.pow_le_pow_right (by omega) (by omega)
      _ ≤ _ := Nat.le_mul_of_pos_left _ (significand_pos h)
  have : (v.sqrtRoot + 1) * (v.sqrtRoot + 1) ≤ 2 ^ 54 * 2 ^ 54 := Nat.mul_le_mul (by omega) (by omega)
  omega

/-- The value whose root is taken, in terms of the square: `units * 2^1074` units squared. -/
theorem sqrtSquare_units (v : F64) :
    v.units <<< 1074 = v.sqrtSquare * (2 ^ ((v.scale + 1074) / 2 - 54) * 2 ^ ((v.scale + 1074) / 2 - 54)) := by
  rw [units, sqrtSquare]
  simp only [Nat.shiftLeft_eq]
  rw [Nat.mul_assoc, Nat.mul_assoc, ← Nat.pow_add, ← Nat.pow_add, ← Nat.pow_add]
  congr 2; omega

theorem fsqrt_value {v : F64} (hf : v.isFinite = true) (hs : v.sign = false) (hz : v.isZero = false) :
    fsqrt v = .value (pack false (roundBits v.sqrtNum 2)) := by
  simp only [fsqrt, isFinite_not_isNaN hf, isFinite_not_isInf hf, hs, hz]
  rfl

/-- `sqrtNum` is bounded, so a root never rounds to an infinity. -/
theorem roundBits_sqrtNum_lt (v : F64) : roundBits v.sqrtNum 2 < infBits := by
  refine lt_of_le_of_ne (roundBits_le _ _) fun h => ?_
  have h1 := (roundBits_inf (num := v.sqrtNum) (by omega : 0 < 2)).1 h
  have hroot : v.sqrtRoot < 2 ^ 82 := by
    by_contra hge
    have h2 := (sqrtRoot_spec v).1
    have hsq : v.sqrtSquare ≤ 9007199254740992 * 2 ^ 109 := by
      rw [sqrtSquare, Nat.shiftLeft_eq]
      exact Nat.mul_le_mul v.significand_lt.le (Nat.pow_le_pow_right (by omega) (by omega))
    have : 2 ^ 82 * 2 ^ 82 ≤ v.sqrtRoot * v.sqrtRoot := Nat.mul_le_mul (by omega) (by omega)
    omega
  have htw : v.sqrtTwice < 2 ^ 84 := by unfold sqrtTwice; split <;> omega
  have hsc : v.scale ≤ 2046 := by
    unfold scale; rw [exponent_eq]; omega
  have hp : 2 ^ ((v.scale + 1074) / 2 - 54) ≤ 2 ^ 1506 := Nat.pow_le_pow_right (by omega) (by omega)
  have hn : v.sqrtNum < 2 ^ 84 * 2 ^ 1506 := by
    rw [sqrtNum, Nat.shiftLeft_eq]
    exact Nat.mul_lt_mul_of_lt_of_le htw hp (by positivity)
  have ho : 2 ^ 84 * 2 ^ 1506 ≤ overflowUnits * 2 := by
    unfold overflowUnits
    rw [Nat.shiftLeft_eq, ← Nat.pow_add, Nat.mul_right_comm]
    calc 2 ^ (84 + 1506) ≤ 2 ^ 2044 := Nat.pow_le_pow_right (by omega) (by omega)
      _ ≤ _ := Nat.le_mul_of_pos_left _ (by omega)
  omega

/-- A square with a common factor of `2 G`. -/
theorem sq_factor (m G : Nat) : (m * (2 * G)) ^ 2 = m * m * (4 * (G * G)) := by ring

theorem four_mul_factor (y G : Nat) : 4 * (y * (G * G)) = y * (4 * (G * G)) := by ring

/-- Equal squares with a common factor have equal roots. -/
theorem root_eq {q m G : Nat} (hG : 0 < G) (h : q * q * (4 * (G * G)) = m * m * (4 * (G * G))) : q = m :=
  Nat.mul_self_inj.1 (Nat.eq_of_mul_eq_mul_right (by positivity) h)

/-- Two values as far from a target on its two sides. -/
theorem same_distance {R C T : Nat} (h : T = R + C) : |2 * (R : Int) - T| = |2 * (C : Int) - T| := by
  rw [show 2 * (R : Int) - T = -(2 * (C : Int) - T) by omega, abs_neg]

/-- Twice the root: exact, or with the half that stands for the rest. -/
theorem sqrtTwice_cases (v : F64) :
    (v.sqrtTwice = 2 * v.sqrtRoot ∧ v.sqrtRoot * v.sqrtRoot = v.sqrtSquare) ∨
      (v.sqrtTwice = 2 * v.sqrtRoot + 1 ∧ v.sqrtRoot * v.sqrtRoot < v.sqrtSquare) := by
  have := (sqrtRoot_spec v).1
  unfold sqrtTwice; split <;> omega

/-- A sum of two multiples of `2 G` that is not below twice the root `t G` squares to no less than `4 y G²`, and to
exactly that only where the root is exact. -/
theorem sum_above {m G t q y : Nat} (hG : 0 < G) (q2 : y < (q + 1) * (q + 1))
    (ht : (t = 2 * q ∧ q * q = y) ∨ (t = 2 * q + 1 ∧ q * q < y)) (h : t * G ≤ m * (2 * G)) :
    4 * (y * (G * G)) ≤ (m * (2 * G)) ^ 2 ∧ (4 * (y * (G * G)) = (m * (2 * G)) ^ 2 → t * G = m * (2 * G)) := by
  have hqm : t ≤ 2 * m := Nat.le_of_mul_le_mul_right (by rw [show 2 * m * G = m * (2 * G) by ring]; exact h) hG
  rw [sq_factor, four_mul_factor]
  have h4 : 0 < 4 * (G * G) := by positivity
  rcases ht with ⟨ht, hy⟩ | ⟨ht, hy⟩
  · have hqq : q * q ≤ m * m := Nat.mul_le_mul (by omega) (by omega)
    refine ⟨hy ▸ Nat.mul_le_mul_right _ hqq, fun he => ?_⟩
    rw [← hy] at he
    rw [ht, root_eq hG he]; ring
  · have hqq : (q + 1) * (q + 1) ≤ m * m := Nat.mul_le_mul (by omega) (by omega)
    have hlt : y * (4 * (G * G)) < m * m * (4 * (G * G)) := Nat.mul_lt_mul_of_pos_right (by omega) h4
    exact ⟨hlt.le, fun he => absurd he hlt.ne⟩

/-- The same from below. -/
theorem sum_below {m G t q y : Nat} (hG : 0 < G) (q1 : q * q ≤ y)
    (ht : (t = 2 * q ∧ q * q = y) ∨ (t = 2 * q + 1 ∧ q * q < y)) (h : m * (2 * G) ≤ t * G) :
    (m * (2 * G)) ^ 2 ≤ 4 * (y * (G * G)) ∧ ((m * (2 * G)) ^ 2 = 4 * (y * (G * G)) → t * G = m * (2 * G)) := by
  have hqm : 2 * m ≤ t := Nat.le_of_mul_le_mul_right (by rw [show 2 * m * G = m * (2 * G) by ring]; exact h) hG
  rw [sq_factor, four_mul_factor]
  have hqq : m * m ≤ q * q := Nat.mul_le_mul (by omega) (by omega)
  refine ⟨Nat.mul_le_mul_right _ (hqq.trans q1), fun he => ?_⟩
  rcases ht with ⟨ht, hy⟩ | ⟨ht, hy⟩
  · rw [← hy] at he
    rw [ht, ← root_eq hG he]; ring
  · have hlt : m * m * (4 * (G * G)) < y * (4 * (G * G)) :=
      Nat.mul_lt_mul_of_pos_right (by omega) (by positivity)
    exact absurd he hlt.ne

/-- A magnitude two binades down is far below twice the root. -/
theorem sum_far_below {R C n X G t q y : Nat} (q1 : q * q ≤ y) (ht : t = 2 * q ∨ t = 2 * q + 1) (hGX : G ≤ X)
    (hR : R = n * (2 * X)) (hC : C < 4503599627370496 * X) (hT : 4503599627370496 * (2 * (2 * X)) ≤ t * G)
    (hn : 2 * |(n : Int) * ((2 * (2 * X) : Nat) : Int) - ((t * G : Nat) : Int)| ≤ ((2 * (2 * X) : Nat) : Int)) :
    (R + C) ^ 2 < 4 * (y * (G * G)) := by
  have h6 : (n : Int) * ((2 * (2 * X) : Nat) : Int) - ((t * G : Nat) : Int) ≤ ((2 * X : Nat) : Int) := by
    have := le_abs_self ((n : Int) * ((2 * (2 * X) : Nat) : Int) - ((t * G : Nat) : Int))
    push_cast at this hn ⊢
    omega
  have h7 : n * (2 * (2 * X)) ≤ t * G + 2 * X := by
    have : (n : Int) * ((2 * (2 * X) : Nat) : Int) ≤ ((t * G : Nat) : Int) + ((2 * X : Nat) : Int) := by omega
    exact_mod_cast this
  have h8 : 2 * R ≤ t * G + 2 * X := by rw [hR]; calc _ = n * (2 * (2 * X)) := by ring
                                                    _ ≤ _ := h7
  have ht2 : t * G ≤ 2 * q * G + G := by
    rcases ht with ht | ht <;> rw [ht]
    · omega
    · rw [Nat.add_mul]; omega
  have hlt : R + C < 2 * q * G := by
    generalize t * G = Y at *
    generalize 2 * q * G = Z at *
    omega
  calc (R + C) ^ 2 = (R + C) * (R + C) := pow_two _
    _ < 2 * q * G * (2 * q * G) := Nat.mul_self_lt_mul_self hlt
    _ = q * q * (4 * (G * G)) := by ring
    _ ≤ y * (4 * (G * G)) := Nat.mul_le_mul_right _ q1
    _ = _ := (four_mul_factor ..).symm

/-- The rounding place of a root stands at least two places above the last place of the integer root. -/
theorem sqrt_place {v : F64} (hz : v.isZero = false) :
    (v.scale + 1074) / 2 - 54 + 2 ≤ roundPlace v.sqrtNum 2 := by
  have qge := sqrtRoot_ge hz
  have hT : v.sqrtNum = v.sqrtTwice * 2 ^ ((v.scale + 1074) / 2 - 54) := by rw [sqrtNum, Nat.shiftLeft_eq]
  generalize (v.scale + 1074) / 2 - 54 = g at *
  have hq : 2 ^ (54 + g) ≤ v.sqrtNum / 2 := by
    rw [hT, Nat.le_div_iff_mul_le (by omega), Nat.pow_add]
    have : 2 ^ 54 * 2 ≤ v.sqrtTwice := by unfold sqrtTwice; omega
    calc 2 ^ 54 * 2 ^ g * 2 = 2 ^ 54 * 2 * 2 ^ g := by ring
      _ ≤ _ := Nat.mul_le_mul_right _ this
  have hne : v.sqrtNum / 2 ≠ 0 := by
    have : 0 < 2 ^ (54 + g) := by positivity
    omega
  have := (Nat.le_log2 hne).2 hq
  unfold roundPlace; omega

/-- The rounded root: no finite magnitude is nearer to the exact root, and where one that differs is as near, the
one given is even. Nearness is said through midpoints: `4 X` against the square of a sum, with
`X = units * 2^1074`. -/
theorem sqrt_nearest {v : F64} (hz : v.isZero = false) (c : F64) :
    (magnitude (roundBits v.sqrtNum 2) < c.units →
      4 * (v.units <<< 1074) ≤ (magnitude (roundBits v.sqrtNum 2) + c.units) ^ 2 ∧
      (4 * (v.units <<< 1074) = (magnitude (roundBits v.sqrtNum 2) + c.units) ^ 2 →
        roundBits v.sqrtNum 2 % 2 = 0)) ∧
    (c.units < magnitude (roundBits v.sqrtNum 2) →
      (magnitude (roundBits v.sqrtNum 2) + c.units) ^ 2 ≤ 4 * (v.units <<< 1074) ∧
      ((magnitude (roundBits v.sqrtNum 2) + c.units) ^ 2 = 4 * (v.units <<< 1074) →
        roundBits v.sqrtNum 2 % 2 = 0)) := by
  have hlt := roundBits_sqrtNum_lt v
  obtain ⟨near, tie⟩ := roundBits_nearest (by omega : 0 < 2) hlt c
  have hmag := magnitude_roundBits (by omega : 0 < 2) hlt
  have hge := roundSignificand_ge (num := v.sqrtNum) (by omega : 0 < 2)
  have hk := sqrt_place hz
  have hpl := roundPlace_le (num := v.sqrtNum) (by omega : 0 < 2) (by omega)
  have hhalf := (divNearestEven_half v.sqrtNum (2 <<< roundPlace v.sqrtNum 2) (by rw [Nat.shiftLeft_eq]; positivity)).1
  obtain ⟨q1, q2⟩ := sqrtRoot_spec v
  have ht := sqrtTwice_cases v
  rw [sqrtSquare_units]
  have hT : v.sqrtNum = v.sqrtTwice * 2 ^ ((v.scale + 1074) / 2 - 54) := by rw [sqrtNum, Nat.shiftLeft_eq]
  generalize (v.scale + 1074) / 2 - 54 = g at *
  have hge' : 4503599627370496 ≤ roundSignificand v.sqrtNum 2 := by omega
  rw [show divNearestEven v.sqrtNum (2 <<< roundPlace v.sqrtNum 2) = roundSignificand v.sqrtNum 2 from rfl] at hhalf
  have hC := units_multiple c (roundPlace v.sqrtNum 2 - 1)
  generalize magnitude (roundBits v.sqrtNum 2) = R at *
  generalize roundBits v.sqrtNum 2 % 2 = par at *
  obtain ⟨i, hi⟩ : ∃ i, roundPlace v.sqrtNum 2 = g + 2 + i := ⟨_, (Nat.add_sub_cancel' hk).symm⟩
  clear hge hlt
  generalize roundSignificand v.sqrtNum 2 = n at *
  generalize roundPlace v.sqrtNum 2 = k at *
  subst hi
  generalize c.units = C at *
  have pk : (2 : Nat) ^ (g + 2 + i) = 2 * (2 ^ i * (2 * 2 ^ g)) := by rw [Nat.pow_add, Nat.pow_add]; ring
  have pk1 : (2 : Nat) ^ (g + 2 + i - 1) = 2 ^ i * (2 * 2 ^ g) := by
    rw [show g + 2 + i - 1 = g + 1 + i by omega, Nat.pow_add, Nat.pow_add]; ring
  rw [Nat.shiftLeft_eq, pk] at hmag hpl hhalf
  rw [pk1] at hC
  have hi1 : 1 ≤ 2 ^ i := Nat.one_le_two_pow
  generalize 2 ^ i = P at *
  have hG : 0 < 2 ^ g := by positivity
  generalize 2 ^ g = G at *
  rw [hT] at near tie hpl hhalf
  generalize v.sqrtTwice = t at *
  generalize v.sqrtRoot = q at *
  generalize v.sqrtSquare = y at *
  rw [mul_comm (R : Int), mul_comm (C : Int)] at near tie
  have heven : ∀ j, R + j * (P * (2 * G)) = (n * 2 * P + j * P) * (2 * G) := by intro j; rw [hmag]; ring
  constructor
  · intro hRC
    have hsum : t * G ≤ R + C := by
      by_contra hlt2
      have hlt2' : (R : Int) + C < ((t * G : Nat) : Int) := by exact_mod_cast Nat.lt_of_not_le hlt2
      rw [Nat.cast_two, abs_of_neg (a := 2 * (R : Int) - _) (by omega)] at near
      rcases abs_cases (2 * (C : Int) - ((t * G : Nat) : Int)) with h | h <;> omega
    rcases hC with ⟨j, rfl⟩ | ⟨-, h⟩
    · rw [heven] at hsum
      obtain ⟨h1, h2⟩ := sum_above hG q2 ht hsum
      rw [heven]
      exact ⟨h1, fun he => tie (same_distance (by rw [heven]; exact h2 he)) (by omega)⟩
    · exfalso
      have : 4503599627370496 * (2 * (P * (2 * G))) ≤ n * (2 * (P * (2 * G))) := Nat.mul_le_mul_right _ hge'
      omega
  · intro hCR
    have hsum : R + C ≤ t * G := by
      by_contra hlt2
      have hlt2' : ((t * G : Nat) : Int) < R + C := by exact_mod_cast Nat.lt_of_not_le hlt2
      rw [Nat.cast_two, abs_of_pos (a := 2 * (R : Int) - _) (by omega)] at near
      rcases abs_cases (2 * (C : Int) - ((t * G : Nat) : Int)) with h | h <;> omega
    rcases hC with ⟨j, rfl⟩ | ⟨-, hsmall⟩
    · rw [heven] at hsum
      obtain ⟨h1, h2⟩ := sum_below hG q1 ht hsum
      rw [heven]
      exact ⟨h1, fun he => tie (same_distance (by rw [heven]; exact h2 he)) (by omega)⟩
    · have hGX : G ≤ P * (2 * G) := le_trans (by omega) (Nat.le_mul_of_pos_left (2 * G) hi1)
      have := sum_far_below q1 (ht.imp And.left And.left) hGX hmag hsmall hpl hhalf
      exact ⟨this.le, fun he => absurd he this.ne⟩

end Sys2Proof.F64
end

