-- ==== Sys2Proof/Laws/Values.lean ====
section
/-! SUPPORT. What a pattern is made of: the three fields determine it, inverting the sign changes one of them, the
classes exclude one another, and rounding leaves a finite value alone. -/

namespace Sys2Proof.F64

/-! ## Inverting the sign -/

theorem negZero_low {j : Nat} (h : j < 63) : (9223372036854775808#64).getLsbD j = false :=
  (by decide : ∀ j : Fin 63, (9223372036854775808#64).getLsbD j.val = false) ⟨j, h⟩

@[simp] theorem negate_sign (v : F64) : v.negate.sign = !v.sign := by simp [negate, sign, negZero]

@[simp] theorem negate_exponent (v : F64) : v.negate.exponent = v.exponent := by
  unfold exponent negate
  congr 1
  ext i hi
  simp [negZero, negZero_low (show 52 + i < 63 by omega)]

@[simp] theorem negate_fraction (v : F64) : v.negate.fraction = v.fraction := by
  unfold fraction negate
  congr 1
  ext i hi
  simp [negZero, negZero_low (show i < 63 by omega)]

@[simp] theorem negate_isFinite (v : F64) : v.negate.isFinite = v.isFinite := by simp [isFinite]
@[simp] theorem negate_isNaN (v : F64) : v.negate.isNaN = v.isNaN := by simp [isNaN]
@[simp] theorem negate_isInf (v : F64) : v.negate.isInf = v.isInf := by simp [isInf]
@[simp] theorem negate_isZero (v : F64) : v.negate.isZero = v.isZero := by simp [isZero]
@[simp] theorem negate_units (v : F64) : v.negate.units = v.units := by simp [units, significand, scale]

theorem negate_signedUnits (v : F64) : v.negate.signedUnits = -v.signedUnits := by
  simp only [signedUnits, negate_sign, negate_units]
  cases v.sign <;> simp

/-! ## The three fields -/

theorem toNat_split (v : F64) :
    v.toNat = (if v.sign then 9223372036854775808 else 0) + v.exponent * 4503599627370496 + v.fraction := by
  have := v.isLt
  rw [exponent_eq, fraction_eq, sign_eq]
  by_cases h : 9223372036854775808 ≤ v.toNat <;> simp [h] <;> omega

theorem eq_of_fields {a b : F64} (h1 : a.sign = b.sign) (h2 : a.exponent = b.exponent)
    (h3 : a.fraction = b.fraction) : a = b := by
  apply BitVec.eq_of_toNat_eq
  rw [toNat_split, toNat_split b, h1, h2, h3]

/-! ## Classes -/

theorem isFinite_iff (v : F64) : v.isFinite = (!v.isNaN && !v.isInf) := by
  simp only [isFinite, isNaN, isInf, bne]
  cases v.exponent == 2047 <;> cases v.fraction == 0 <;> simp

theorem isZero_classes {v : F64} (h : v.isZero = true) : v.isInf = false ∧ v.isNaN = false ∧ v.isFinite = true := by
  simp [isZero] at h
  simp [isInf, isNaN, isFinite, h]

theorem isInf_classes {v : F64} (h : v.isInf = true) : v.isNaN = false ∧ v.isZero = false := by
  simp [isInf] at h
  simp [isZero, isNaN, h]

/-! ## Values -/

theorem isZero_of_units {v : F64} (h : v.units = 0) : v.isZero = true := by
  by_contra hz
  have := significand_pos (v := v) (by simpa using hz)
  rw [units, Nat.shiftLeft_eq] at h
  have : 0 < v.significand * 2 ^ v.scale := by positivity
  omega

theorem units_of_isZero {v : F64} (h : v.isZero = true) : v.units = 0 := by
  simp [isZero] at h
  simp [units, significand, scale, h]

@[simp] theorem natAbs_signedUnits (v : F64) : v.signedUnits.natAbs = v.units := by
  unfold signedUnits
  split <;> simp

/-- A finite value is its own rounding. -/
theorem pack_exact {v : F64} (h : v.isFinite = true) : pack v.sign (roundBits v.units 1) = v := by
  have hlt := roundBits_lt v.units 1
  have he := roundBits_exact h
  have hf := v.fraction_lt
  apply eq_of_fields
  · exact pack_sign _ hlt
  · rw [pack_exponent _ hlt, he]; omega
  · rw [pack_fraction _ hlt, he]; omega

end Sys2Proof.F64
end

