-- ==== Sys2Proof/Tests/Slice0.lean ====
section
/-! SUPPORT. Small tests, each about one step or one host operation, with results from the spec's vectors
(spec/95_test_vectors.md), and one witness for every statement that has hypotheses. -/

namespace Sys2Proof.Tests

open Sys2Proof Sys2Proof.Machine

/-! ## Ill-formed terms are refused (30_encoding.md R81, R82, R83) -/

theorem test_wellFormed_primary8to15 : (Instr.invalidPrimary8to15 7 0 0).wellFormed .reference = false := by decide
theorem test_wellFormed_secondary6to7_low : (Instr.invalidSecondary6to7 5 0 0 0 0).wellFormed .reference = false := by decide
theorem test_wellFormed_secondary6to7_high : (Instr.invalidSecondary6to7 8 0 0 0 0).wellFormed .reference = false := by decide
theorem test_wellFormed_secondary8to15 : (Instr.invalidSecondary8to15 7 0 0 0 0).wellFormed .reference = false := by decide
theorem test_wellFormed_compareMode6to7 : (Instr.invalidCompareMode6to7 5 0 0 0).wellFormed .reference = false := by decide

/-- Other opcode tables: ADD has the code 7, READ_INPUT the code 5, COMPARE_ZERO.GT the mode 5. -/
def otherTables : OpcodeTables where
  primary := { OpcodeTables.reference.primary with add := 7 }
  secondary := { OpcodeTables.reference.secondary with readInput := 5 }
  mode := { OpcodeTables.reference.mode with gt := 5 }

theorem test_otherTables_legal : otherTables.Legal := by decide
theorem test_wellFormed_primary7 : (Instr.invalidPrimary7 0 0).wellFormed otherTables = false := by decide
theorem test_wellFormed_secondary5 : (Instr.invalidSecondary5 0 0 0 0).wellFormed otherTables = false := by decide
theorem test_wellFormed_compareMode5 : (Instr.invalidCompareMode5 0 0 0).wellFormed otherTables = false := by decide

/-- Two primary operations with one code are no legal tables (30_encoding.md R77). -/
theorem test_tables_not_legal :
    ¬ { otherTables with primary := { OpcodeTables.reference.primary with sub := 1 } }.Legal := by decide

/-! ## Words written out from the encodings (30_encoding.md R71, R72, R78; 95_test_vectors.md V1) -/

theorem test_decode_add : decode .reference 0b0001_00000000000001_00000000000010 = .add 1 2 := by decide
theorem test_decode_sub : decode .reference 0b0010_00000000000011_00000000000100 = .sub 3 4 := by decide
theorem test_decode_mult : decode .reference 0b0011_11111111111111_11111111111111 = .mult 16383 16383 := by decide
theorem test_decode_div : decode .reference 0b0100_00000000000001_00000000000000 = .div 1 0 := by decide
theorem test_decode_output : decode .reference 0b0101_00000000000111_00000000000010 = .output 7 2 := by decide
theorem test_decode_select : decode .reference 0b0110_00000000000010_00000000000000 = .select 2 0 := by decide
theorem test_decode_noop : decode .reference 0b0000_0000_111_1_111111_11111111111111 = .noop 7 1 63 16383 := by decide
theorem test_decode_compareZeroLt :
    decode .reference 0b0000_0001_000_1_111111_00000000000101 = .compareZeroLt 1 63 5 := by decide
theorem test_decode_compareZeroLe :
    decode .reference 0b0000_0001_001_0_000000_00000000000101 = .compareZeroLe 0 0 5 := by decide
theorem test_decode_compareZeroEq :
    decode .reference 0b0000_0001_010_0_000000_00000000000101 = .compareZeroEq 0 0 5 := by decide
theorem test_decode_compareZeroGe :
    decode .reference 0b0000_0001_011_0_000000_00000000000101 = .compareZeroGe 0 0 5 := by decide
theorem test_decode_compareZeroGt :
    decode .reference 0b0000_0001_100_1_111111_11111111111111 = .compareZeroGt 1 63 16383 := by decide
theorem test_decode_sqrt : decode .reference 0b0000_0010_101_0_000000_00000000000100 = .sqrt 5 0 0 4 := by decide
theorem test_decode_copy : decode .reference 0b0000_0011_000_0_000000_00000000000001 = .copy 0 0 0 1 := by decide
theorem test_decode_readInput :
    decode .reference 0b0000_0100_000_0_000000_11111010000000 = .readInput 0 0 0 16000 := by decide
theorem test_decode_invalidPrimary7 :
    decode .reference 0b0111_00000000000000_00000000000000 = .invalidPrimary7 0 0 := by decide
theorem test_decode_invalidPrimary8to15 :
    decode .reference 0b1000_00000000000001_00000000000010 = .invalidPrimary8to15 8 1 2 := by decide
theorem test_decode_invalidSecondary5 :
    decode .reference 0b0000_0101_000_0_000000_00000000000011 = .invalidSecondary5 0 0 0 3 := by decide
theorem test_decode_invalidSecondary6to7 :
    decode .reference 0b0000_0111_010_1_000001_00000000000000 = .invalidSecondary6to7 7 2 1 1 0 := by decide
theorem test_decode_invalidSecondary8to15 :
    decode .reference 0b0000_1000_000_0_000000_00000000000000 = .invalidSecondary8to15 8 0 0 0 0 := by decide
theorem test_decode_invalidCompareMode5 :
    decode .reference 0b0000_0001_101_0_000000_00000000000000 = .invalidCompareMode5 0 0 0 := by decide
theorem test_decode_invalidCompareMode6to7 :
    decode .reference 0b0000_0001_111_0_000000_00000000000101 = .invalidCompareMode6to7 7 0 0 5 := by decide

/-- Under other tables the same words are other operations, and a code without a name is INVALID (R77). -/
theorem test_decode_other_tables :
    decode otherTables 0b0111_00000000000001_00000000000010 = .add 1 2 ∧
    decode otherTables 0b0001_00000000000001_00000000000010 = .invalidPrimary8to15 1 1 2 ∧
    decode otherTables 0b0000_0101_000_0_000000_00000000000011 = .readInput 0 0 0 3 ∧
    decode otherTables 0b0000_0001_101_0_000000_00000000000101 = .compareZeroGt 0 0 5 := by decide

/-- T2: the same low 28 bits, two forms. -/
theorem test_decode_dual_form :
    decode .reference 0x11200005 = .add 1152 5 ∧ decode .reference 0x01200005 = .compareZeroLe 0 0 5 := by decide

theorem test_decodeTableWord : decodeTableWord 32 0x2000C004 = some (.sub 3 4) := by decide

/-- The byte decoder rejects by name a string too short for a word, and leaves the bytes after one. -/
theorem test_decodeBytes_rejects : decodeBytes .reference .little [0, 0, 0] = .error .truncatedWord := by decide
theorem test_decodeBytes_rest :
    decodeBytes .reference .big [0x10, 0x00, 0x40, 0x02, 0xAA] = .ok (.add 1 2, [0xAA]) := by decide

/-! ## One step -/

/-- Line 2 of a three-line program in progress holds the word; the data memory is as given. -/
def lineAt (w : Word) (mem : Memory) : State :=
  { State.reset with phase := .ready, imem := [0, 0, w], mem := mem, pc := 2 }

/-- What a step answers, seen through one reading. -/
def after {α : Type} (s : State) (f : State → α) : Option α :=
  match step s with
  | .next t => some (f t)
  | .fault _ => none
  | .refused _ => none

/-- The own slot of line 2 after a step. -/
def ownSlotAfter (w : Word) (mem : Memory) : Option F64 := after (lineAt w mem) fun t => t.mem.read 2

-- V2
theorem test_add_rounds : ownSlotAfter 0x10000001 [(0, 0x3FB999999999999A), (1, 0x3FC999999999999A)] =
    some 0x3FD3333333333334 := by decide +kernel
theorem test_add_tie_to_even : ownSlotAfter 0x10000001 [(0, 0x4340000000000000), (1, 0x3FF0000000000000)] =
    some 0x4340000000000000 := by decide +kernel
theorem test_sub_order : ownSlotAfter 0x20000001 [(0, 0x4008000000000000), (1, 0x4014000000000000)] =
    some 0xC000000000000000 := by decide +kernel
theorem test_sub_overflow : ownSlotAfter 0x20000001 [(0, 0xFFE1CCF385EBC8A0), (1, 0x7FE1CCF385EBC8A0)] =
    some 0xFFF0000000000000 := by decide +kernel
theorem test_mult_rounds : ownSlotAfter 0x30000001 [(0, 0x3FB999999999999A), (1, 0x3FB999999999999A)] =
    some 0x3F847AE147AE147C := by decide +kernel
theorem test_mult_underflow_tie : ownSlotAfter 0x30000001 [(0, 0x0000000000000001), (1, 0x3FE0000000000000)] =
    some 0x0000000000000000 := by decide +kernel
-- V3
theorem test_div_rounds : ownSlotAfter 0x40000001 [(0, 0x4000000000000000), (1, 0x4008000000000000)] =
    some 0x3FE5555555555555 := by decide +kernel
theorem test_div_guard_keeps_bits : after (lineAt 0x40000001
    [(0, 0x4014000000000000), (1, 0x8000000000000000), (2, 0x7FF8000000000123)]) (fun t => (t.mem.read 2, t.pc)) =
    some (0x7FF8000000000123, 3) := by decide +kernel
-- V4
theorem test_output_signalling_nan : after (lineAt 0x5FFFC000 [(0, 0x7FF0000000000001)])
    (fun t => (t.outPort, t.mem)) = some ([(16383, 0x7FF0000000000001)], [(0, 0x7FF0000000000001)]) := by decide
theorem test_select_true : after { lineAt 0x60000001 [(0, 0x4024000000000000), (1, 0x4034000000000000)] with
    status := true } (fun t => t.mem.read 2) = some 0x4024000000000000 := by decide
theorem test_select_false : ownSlotAfter 0x60000001 [(0, 0x4024000000000000), (1, 0x4034000000000000)] =
    some 0x4034000000000000 := by decide
-- V7
theorem test_noop_only_advances : after (lineAt 0x00FFFFFF [(2, 0x401C000000000000)]) id =
    some { lineAt 0x00FFFFFF [(2, 0x401C000000000000)] with pc := 3 } := by decide
-- V5
theorem test_compareZeroLt_negZero : after { lineAt 0x01000000 [(0, 0x8000000000000000)] with status := true }
    State.status = some false := by decide
theorem test_compareZeroLe_nan : after { lineAt 0x01200000 [(0, 0x7FF8000000000000)] with status := true }
    State.status = some false := by decide
theorem test_compareZeroEq_negZero : after (lineAt 0x01400000 [(0, 0x8000000000000000)]) State.status = some true := by
  decide
theorem test_compareZeroGe_negZero : after (lineAt 0x01600000 [(0, 0x8000000000000000)]) State.status = some true := by
  decide
theorem test_compareZeroGt_subnormal : after (lineAt 0x01800000 [(0, 0x0000000000000001)]) State.status =
    some true := by decide
-- V6
theorem test_sqrt_rounds : ownSlotAfter 0x02000000 [(0, 0x4008000000000000)] = some 0x3FFBB67AE8584CAA := by
  decide +kernel
theorem test_sqrt_subnormal : ownSlotAfter 0x02000000 [(0, 0x0000000000000001)] = some 0x1E60000000000000 := by
  decide +kernel
-- V7
theorem test_copy_signalling_nan : ownSlotAfter 0x03000001 [(1, 0x7FF0000000000001)] = some 0x7FF0000000000001 := by
  decide
theorem test_copy_zero_keeps_canonical_form : after (lineAt 0x03000001 [(2, 0x3FF0000000000000)]) State.mem =
    some [] := by decide
theorem test_readInput_not_consumed : after { lineAt 0x04000005 [] with inPort := [(5, 0x3FF8000000000000)] }
    (fun t => (t.mem, t.inPort)) = some ([(2, 0x3FF8000000000000)], [(5, 0x3FF8000000000000)]) := by decide
-- R77: the machine decodes by its own tables
theorem test_step_other_tables : after { lineAt 0x05000005 [] with
    cfg := { Config.reference with opcodes := otherTables }, inPort := [(5, 0x3FF8000000000000)] }
    (fun t => t.mem.read 2) = some 0x3FF8000000000000 := by decide
-- R142
theorem test_invalid_refused : step (lineAt 0x70000000 []) = .refused .invalidLine := rfl
theorem test_invalid_noop : after { lineAt 0x01A00000 [] with
    cfg := { Config.reference with invalidPolicy := .noop } } State.pc = some 3 := by decide

/-! ## Load and host operations -/

/-- B0, the 36-byte image of T7. -/
def imageT7 : List Byte :=
  [0x00, 0x00, 0x00, 0x00, 0x00, 0x00, 0xF0, 0x3F, 0x00, 0x00, 0x00, 0x00] ++
  [0x00, 0x00, 0x00, 0x10, 0x00, 0x00, 0x00, 0x00, 0x00, 0x00, 0x00, 0x40] ++
  [0x00, 0x00, 0x00, 0x00, 0x00, 0x00, 0x08, 0x40, 0x01, 0x40, 0x00, 0x50]

/-- The sixth image of V8: its one word is 0x70000000. -/
def imageInvalid : List Byte := [0x00, 0x00, 0x00, 0x00, 0x00, 0x00, 0xF0, 0x3F, 0x00, 0x00, 0x00, 0x70]

theorem test_load_record_parity : State.reset.load (.bytes imageT7) =
    { State.reset with
      phase := .ready, imem := [0x00000000, 0x10000000, 0x50004001], pc := 3, replies := [.loadOk],
      mem := [(0, 0x3FF0000000000000), (1, 0x4000000000000000), (2, 0x4008000000000000)] } := by decide
theorem test_load_drops_partial_record : (State.reset.load (.bytes (imageT7.take 32))).n = 2 := by decide
theorem test_load_invalid : State.reset.load (.bytes imageInvalid) =
    { State.reset with replies := [.loadError .invalidEncoding] } := by decide
theorem test_run_cycle_before_load : hostOp .runCycle State.reset = .next State.reset := rfl
theorem test_write_input_out_of_range : hostOp (.writeInput 16384 0x3FF0000000000000) State.reset =
    .refused .portOutOfRange := rfl
theorem test_read_output_reset : hostOp (.readOutput 0) State.reset =
    .next { State.reset with replies := [.output 0] } := rfl
theorem test_withFetchWord : after (State.reset.withFetchWord 32 0x01600000) State.status = some true := by decide
theorem test_reset_memory_canonical : State.reset.mem.wf ∧ State.reset.inPort.wf ∧ State.reset.outPort.wf := by decide

/-! ## Witnesses: states and operands that meet the hypotheses of the statements -/

/-- The program of T4 in the middle of its cycle: line 1 is to be executed. -/
def running : State :=
  { State.reset with
    phase := .ready, imem := [0x03000001, 0x10000000], pc := 1,
    mem := [(0, 0x4010000000000000), (1, 0x4010000000000000)] }

/-- The same program between cycles, the host about to begin one. -/
def idle : State := { running with pc := 2, pending := [.runCycle, .destroy] }

/-- An empty program between cycles. -/
def idleEmpty : State := { State.reset with phase := .ready, pending := [.runCycle] }

/-- The state after create under the other value of INVALID_POLICY. -/
def resetNoop : State := { State.reset with cfg := { Config.reference with invalidPolicy := .noop } }

/-- The invariant of a concrete state, by evaluation. -/
theorem inv_of_checks {s : State}
    (h : s.cfg.opcodes.Legal ∧ s.n ≤ s.cfg.memCapacity ∧ s.pc ≤ s.n ∧ s.mem.wf ∧ s.mem.below s.n ∧ s.inPort.wf ∧
      s.inPort.below Config.portCount ∧ s.outPort.wf ∧ s.outPort.below Config.portCount ∧
      (s.phase = .created → s.imem = []) ∧ s.imem.all (fun w => !(decode s.cfg.opcodes w).isInvalid) = true) : s.Inv := by
  obtain ⟨h0, h1, h2, h3, h4, h5, h6, h7, h8, h9, h10⟩ := h
  exact ⟨h0, h1, h2, h3, h4, h5, h6, h7, h8, h9, fun _ w hw => by simpa using List.all_eq_true.1 h10 w hw⟩

theorem running_inv : running.Inv := inv_of_checks (by decide +kernel)
theorem idle_inv : idle.Inv := inv_of_checks (by decide +kernel)
theorem idleEmpty_inv : idleEmpty.Inv := inv_of_checks (by decide +kernel)
theorem reset_inv : State.reset.Inv := inv_of_checks (by decide +kernel)
theorem running_fetch : running.fetch = some 0x10000000 := rfl
theorem reset_canWriteSlot : State.reset.CanWriteSlot := by constructor <;> decide +kernel
theorem last_slot_canWriteSlot : { State.reset with pc := 32767 }.CanWriteSlot := by constructor <;> decide +kernel

theorem witness_EncodersGiveEveryWordBack :
    (fields 0x10004002).primary ≠ 0 ∧ (fields 0xFFFFFFFF).primary ≠ 0 ∧ (fields 0x0FFFFFFF).primary = 0 := by decide

/-- Both tables, and each open code at the ends of its range. -/
theorem witness_DecodeOfEncodeIsTheInstruction :
    OpcodeTables.reference.Legal ∧ (Instr.add 16383 0).wellFormed .reference = true ∧
    (Instr.invalidPrimary8to15 8 0 0).wellFormed .reference = true ∧
    (Instr.invalidPrimary8to15 15 0 0).wellFormed .reference = true ∧
    (Instr.invalidSecondary6to7 6 0 0 0 0).wellFormed .reference = true ∧
    (Instr.invalidSecondary6to7 7 0 0 0 0).wellFormed .reference = true ∧
    (Instr.invalidSecondary8to15 8 0 0 0 0).wellFormed .reference = true ∧
    (Instr.invalidSecondary8to15 15 0 0 0 0).wellFormed .reference = true ∧
    (Instr.invalidCompareMode6to7 6 0 0 0).wellFormed .reference = true ∧
    (Instr.invalidCompareMode6to7 7 0 0 0).wellFormed .reference = true ∧
    otherTables.Legal ∧ (Instr.invalidPrimary8to15 1 0 0).wellFormed otherTables = true := by decide

theorem witness_OpcodeTablesSelectTheOperations : OpcodeTables.reference.Legal ∧ otherTables.Legal := by decide

/-- The greatest finite value, the least subnormal, a negative value. -/
theorem witness_ArithmeticIsCorrectlyRounded :
    F64.isFinite 0x7FEFFFFFFFFFFFFF = true ∧ F64.isFinite 0xBFF0000000000000 = true ∧
    F64.isFinite 0x0000000000000001 = true ∧ F64.isZero 0x0000000000000001 = false ∧
    F64.isZero 0x7FEFFFFFFFFFFFFF = false ∧ F64.sign 0x0000000000000001 = false ∧
    F64.sign 0x7FEFFFFFFFFFFFFF = false := by decide

/-- 1.0 and -1.0, the two zeros, and products and quotients that are values. -/
theorem witness_SignsOfZeroResults :
    (F64.isFinite 0x3FF0000000000000 = true ∧ F64.isFinite 0xBFF0000000000000 = true ∧
      F64.sign 0x3FF0000000000000 ≠ F64.sign 0xBFF0000000000000 ∧
      F64.signedUnits 0x3FF0000000000000 + F64.signedUnits 0xBFF0000000000000 = 0) ∧
    (F64.posZero.isFinite = true ∧ F64.negZero.isFinite = true ∧ F64.posZero.sign ≠ F64.negZero.sign ∧
      F64.posZero.signedUnits + F64.negZero.signedUnits = 0) ∧
    F64.fmul 0xBFF0000000000000 F64.posZero = .value F64.negZero ∧
    F64.fdiv F64.negZero 0x4014000000000000 = .value F64.negZero ∧
    F64.isNaN 0x7FF0000000000000 = false ∧ F64.isNaN F64.posZero = false := by decide +kernel

theorem witness_ArithmeticOnInfinities :
    (F64.isInf 0x7FF0000000000000 = true ∧ F64.isInf 0xFFF0000000000000 = true ∧
      F64.isFinite 0x7FEFFFFFFFFFFFFF = true ∧ F64.isZero 0x7FEFFFFFFFFFFFFF = false ∧ F64.isFinite F64.posZero = true) ∧
    F64.sign 0x7FF0000000000000 = F64.sign 0x7FF0000000000000 ∧
    (State.reset.mem.read (0 : Addr).toNat).isZero = true := by decide

/-- One pattern for each row of the table, at the edges of the rows. -/
theorem witness_ComparisonWithZeroTruthTable :
    F64.isNaN 0x7FF0000000000001 = true ∧ F64.isNaN 0xFFFFFFFFFFFFFFFF = true ∧
    (F64.isNaN 0x8000000000000001 = false ∧ (0x8000000000000001 : F64) ≠ F64.posZero ∧
      (0x8000000000000001 : F64) ≠ F64.negZero ∧ F64.sign 0x8000000000000001 = true) ∧
    (F64.isNaN 0xFFF0000000000000 = false ∧ F64.sign 0xFFF0000000000000 = true) ∧
    (F64.isNaN 0x0000000000000001 = false ∧ (0x0000000000000001 : F64) ≠ F64.posZero ∧
      (0x0000000000000001 : F64) ≠ F64.negZero ∧ F64.sign 0x0000000000000001 = false) := by decide

theorem witness_AddWritesTheSumToItsOwnSlot :
    State.reset.CanWriteSlot ∧ { State.reset with pc := 32767 }.CanWriteSlot ∧ F64.isNaN 0x7FF0000000000001 = true :=
  ⟨reset_canWriteSlot, last_slot_canWriteSlot, by decide⟩

theorem witness_SubWritesTheDifferenceToItsOwnSlot :
    State.reset.CanWriteSlot ∧ { State.reset with pc := 32767 }.CanWriteSlot ∧ F64.isFinite 0x7FEFFFFFFFFFFFFF = true ∧
    F64.isFinite 0x7FF0000000000000 = false ∧ F64.isNaN 0x7FF0000000000000 = false ∧
    F64.isZero 0x7FF0000000000000 = false :=
  ⟨reset_canWriteSlot, last_slot_canWriteSlot, by decide⟩

theorem witness_MultWritesTheProductToItsOwnSlot :
    State.reset.CanWriteSlot ∧ { State.reset with pc := 32767 }.CanWriteSlot ∧ F64.isZero F64.negZero = true ∧
    F64.isInf 0x7FF0000000000000 = true ∧ F64.isFinite 0x7FEFFFFFFFFFFFFF = true :=
  ⟨reset_canWriteSlot, last_slot_canWriteSlot, by decide⟩

/-- A zero divisor of either sign, and the least divisor that is not zero. -/
theorem witness_DivWritesTheQuotientUnlessTheDivisorIsZero :
    (State.reset.mem.read (1 : Addr).toNat).feq0 = true ∧
    ((lineAt 0x40000001 [(1, 0x8000000000000000)]).mem.read (1 : Addr).toNat).feq0 = true ∧
    ((lineAt 0x40000001 [(1, 0x0000000000000001)]).mem.read (1 : Addr).toNat).feq0 = false ∧
    (lineAt 0x40000001 [(1, 0x0000000000000001)]).CanWriteSlot :=
  ⟨by decide, by decide, by decide, by constructor <;> decide +kernel⟩

theorem witness_OutputCopiesASlotToAnOutputPort :
    State.reset.outPort.wf ∧ { State.reset with outPort := [(0, 1), (16383, 1)] }.outPort.wf := by decide

theorem witness_SelectChoosesByTheStatusFlag :
    { State.reset with status := true }.CanWriteSlot ∧ { State.reset with pc := 32767 }.CanWriteSlot :=
  ⟨by constructor <;> decide +kernel, last_slot_canWriteSlot⟩

/-- An ADD line is executed before the line of a NOOP; and a NOOP line itself. -/
theorem witness_NoopOnlyAdvances :
    ∃ s : State, s.mem.wf ∧ s.phase = .ready ∧ s.imem[s.pc]? = some 0x10000000 ∧ (∃ u, step s = .next u) ∧
      s.imem[1]? = some 0x00FFFFFF ∧ decode s.cfg.opcodes 0x00FFFFFF = .noop 7 1 63 16383 :=
  ⟨{ running with imem := [0x10000000, 0x00FFFFFF], pc := 0 }, by decide, rfl, rfl, ⟨_, rfl⟩, rfl, by decide⟩

theorem witness_CompareZeroWritesTheStatusFlag :
    F64.isNaN 0x7FF8000000000000 = true ∧ writesStatus (.copy 0 0 0 0) = false ∧
    ∃ u, exec (.copy 0 0 0 0) running = .next u := ⟨by decide, rfl, _, rfl⟩

theorem witness_SqrtWritesTheRootToItsOwnSlot :
    State.reset.CanWriteSlot ∧ { State.reset with pc := 32767 }.CanWriteSlot ∧ F64.flt0 0x8000000000000001 = true ∧
    F64.isNaN 0x7FF0000000000001 = true :=
  ⟨reset_canWriteSlot, last_slot_canWriteSlot, by decide⟩

theorem witness_CopyMovesASlotToItsOwnSlot :
    State.reset.CanWriteSlot ∧ { State.reset with pc := 32767 }.CanWriteSlot :=
  ⟨reset_canWriteSlot, last_slot_canWriteSlot⟩

theorem witness_ReadInputMovesAPortToItsOwnSlot :
    State.reset.CanWriteSlot ∧ { State.reset with pc := 32767 }.CanWriteSlot :=
  ⟨reset_canWriteSlot, last_slot_canWriteSlot⟩

/-- Each of the seven INVALID rows, both policies, an image that holds an undefined word, and a line in progress. -/
theorem witness_InvalidLinesAreRefusedOrExecuteAsNoop :
    ((Instr.invalidPrimary7 0 0).isInvalid = true ∧ (Instr.invalidPrimary8to15 8 0 0).isInvalid = true ∧
      (Instr.invalidSecondary5 0 0 0 0).isInvalid = true ∧ (Instr.invalidSecondary6to7 6 0 0 0 0).isInvalid = true ∧
      (Instr.invalidSecondary8to15 8 0 0 0 0).isInvalid = true ∧ (Instr.invalidCompareMode5 0 0 0).isInvalid = true ∧
      (Instr.invalidCompareMode6to7 6 0 0 0).isInvalid = true) ∧
    State.reset.cfg.invalidPolicy = .refuse ∧ resetNoop.cfg.invalidPolicy = .noop ∧
    (imageInvalid.length / 12 ≤ State.reset.cfg.memCapacity ∧ 0 < imageInvalid.length / 12 ∧
      (decode .reference (recordWord State.reset.cfg.imageEndian imageInvalid 0)).isInvalid = true) ∧
    running.Inv ∧ running.cfg.invalidPolicy = .refuse ∧ running.fetch = some 0x10000000 :=
  ⟨by decide, rfl, rfl, by decide, running_inv, rfl, rfl⟩

theorem witness_StepRunsTheDecodedInstruction :
    running.cfg.opcodes.Legal ∧ running.phase = .ready ∧ running.imem[running.pc]? = some 0x10000000 ∧ (Instr.add 0 0).wellFormed running.cfg.opcodes = true ∧
    running.imem[running.pc]? = some (encode running.cfg.opcodes (.add 0 0)) := by decide

theorem witness_StepIsAtomicAndTotal :
    running.Inv ∧ running.phase = .ready ∧ running.imem[running.pc]? = some 0x10000000 :=
  ⟨running_inv, rfl, rfl⟩

theorem witness_InstructionsWriteOnlyWhatTheirRowSays :
    running.mem.wf ∧ running.outPort.wf ∧ (∃ t, exec (.copy 0 0 0 0) running = .next t) ∧
    (∃ t, exec (.output 16383 0) running = .next t) ∧ ∃ t, exec (.compareZeroLt 0 0 0) running = .next t :=
  ⟨by decide, by decide, ⟨_, rfl⟩, ⟨_, rfl⟩, ⟨_, rfl⟩⟩

theorem witness_OnlySelectReadsTheStatusFlag :
    readsStatus (.copy 0 0 0 0) = false ∧ (∃ t, exec (.copy 0 0 0 0) running = .next t) ∧
    readsStatus (.compareZeroLt 0 0 0) = false ∧ ∃ t, exec (.compareZeroLt 0 0 0) running = .next t :=
  ⟨rfl, ⟨_, rfl⟩, rfl, ⟨_, rfl⟩⟩

theorem witness_NoInstructionReadsAnOutputPort :
    (∃ t, exec (.output 7 0) running = .next t) ∧ ∃ t, exec (.readInput 0 0 0 7) running = .next t :=
  ⟨⟨_, rfl⟩, ⟨_, rfl⟩⟩

/-- A step of the engine that is an OUTPUT to another port, and a host operation on another input port. -/
theorem witness_PortsKeepTheirValuesUntilWritten :
    (∃ s t : State, s.inPort.wf ∧ s.outPort.wf ∧ step s = .next t ∧ s.fetch = some 0x5001C000 ∧
      ¬ s.mayWriteInPort 7 ∧ ¬ s.mayWriteOutPort 8) ∧
    ∃ s t : State, s.inPort.wf ∧ s.outPort.wf ∧ step s = .next t ∧ s.pending = [.writeInput 16383 1] ∧
      ¬ s.mayWriteInPort 16382 ∧ ¬ s.mayWriteOutPort 16383 := by
  refine ⟨⟨lineAt 0x5001C000 [], _, by decide, by decide, rfl, rfl, ?_, ?_⟩,
    { State.reset with pending := [.writeInput 16383 1] }, _, by decide, by decide, rfl, rfl, ?_, ?_⟩
  · rintro (⟨h, -⟩ | ⟨h, -⟩) <;> cases h
  · rintro (⟨h, -⟩ | ⟨w, h, hp⟩)
    · cases h
    · cases h
      exact absurd hp (by decide)
  · rintro (⟨-, op, rest, h, ho⟩ | ⟨-, v, rest, h⟩)
    · cases h
      rcases ho with h | ⟨⟨_, h⟩, -⟩ <;> cases h
    · cases h
  · rintro (⟨-, op, rest, h, ho⟩ | ⟨w, h, -⟩)
    · cases h
      rcases ho with h | ⟨⟨_, h⟩, -⟩ <;> cases h
    · cases h

theorem witness_EveryFormedAddressExists : running.Inv ∧ running.fetch = some 0x10000000 := ⟨running_inv, rfl⟩

/-- A step of the engine, and one of the host. -/
theorem witness_EveryStepKeepsTheInvariant :
    (running.Inv ∧ ∃ t, step running = .next t) ∧ idle.Inv ∧ ∃ t, step idle = .next t :=
  ⟨⟨running_inv, _, rfl⟩, idle_inv, _, rfl⟩

theorem witness_NoStepFaults : running.Inv ∧ running.cycleInProgress ∧ idle.Inv := ⟨running_inv, rfl, idle_inv⟩

theorem witness_NoStepChangesTheConfiguration : (∃ t, step running = .next t) ∧ ∃ t, step State.reset = .next t :=
  ⟨⟨_, rfl⟩, _, rfl⟩

/-- A two-line program and an empty one, each about to run a cycle. -/
theorem witness_RunCycleExecutesEveryLineOnceInOrder :
    (idle.Inv ∧ idle.phase = .ready ∧ idle.pc = idle.n ∧ idle.pending = .runCycle :: [.destroy]) ∧
    idleEmpty.Inv ∧ idleEmpty.phase = .ready ∧ idleEmpty.pc = idleEmpty.n ∧ idleEmpty.pending = .runCycle :: [] ∧
    idleEmpty.n = 0 :=
  ⟨⟨idle_inv, rfl, rfl, rfl⟩, idleEmpty_inv, rfl, rfl, rfl, rfl⟩

/-- Slot 2 lies above the two-line program, slot 0 of the other is that of a NOOP line. -/
theorem witness_CycleKeepsTheSlotsOfNonWritingLines :
    (idle.Inv ∧ idle.phase = .ready ∧ idle.pc = idle.n ∧ idle.pending = .runCycle :: [.destroy] ∧
      (∃ t, Host.Core.run Sys2Proof.core (idle.n + 1) idle = .next t) ∧
      ∀ w, idle.imem[2]? = some w → writesSlot (decode .reference w) = false) ∧
    ∃ s : State, s.Inv ∧ s.phase = .ready ∧ s.pc = s.n ∧ s.pending = .runCycle :: [] ∧
      (∃ t, Host.Core.run Sys2Proof.core (s.n + 1) s = .next t) ∧ s.imem[0]? = some 0 ∧
      ∀ w, s.imem[0]? = some w → writesSlot (decode .reference w) = false :=
  ⟨⟨idle_inv, rfl, rfl, rfl, ⟨_, rfl⟩, fun _ h => by cases h⟩,
    { idleEmpty with imem := [0], pc := 1, mem := [(0, 1)] }, inv_of_checks (by decide +kernel), rfl, rfl, rfl,
    ⟨_, rfl⟩, rfl, fun _ h => by cases h; decide⟩

theorem witness_CycleStartsFromTheStateLeft :
    idle.phase = .ready ∧ idle.pc = idle.n ∧ idle.pending = .runCycle :: [.destroy] := by decide

theorem witness_CreateYieldsTheResetState :
    State.reset.fetch = none ∧ idle.fetch = none ∧ State.reset.cfg.statusReset = .cleared := by decide

/-- The image of T7, the empty image, and under INVALID_POLICY = noop an image as long as MEM_CAPACITY. -/
theorem witness_LoadInstallsTheImage :
    (State.reset.Inv ∧ State.reset.phase = .created ∧ imageT7.length / 12 ≤ State.reset.cfg.memCapacity ∧
      (State.reset.cfg.invalidPolicy = .refuse → ∀ k, k < imageT7.length / 12 →
        (decode .reference (recordWord State.reset.cfg.imageEndian imageT7 k)).isInvalid = false)) ∧
    ([] : List Byte).length / 12 ≤ State.reset.cfg.memCapacity ∧
    resetNoop.Inv ∧ resetNoop.phase = .created ∧ resetNoop.cfg.invalidPolicy ≠ .refuse ∧
    (List.replicate 393216 (0 : Byte)).length / 12 ≤ resetNoop.cfg.memCapacity :=
  ⟨⟨reset_inv, rfl, by decide, fun _ => by decide⟩, by decide, inv_of_checks (by decide +kernel), rfl, by decide, by
    rw [List.length_replicate]; decide⟩

/-- Records 0, 1 and the last, 2, of the image of T7. -/
theorem witness_RecordFieldsAlternateByParity :
    12 * 0 + 12 ≤ imageT7.length ∧ 12 * 1 + 12 ≤ imageT7.length ∧ 12 * 2 + 12 ≤ imageT7.length := by decide

theorem witness_PartialRecordIsDropped :
    imageT7.length % 12 = 0 ∧ ([] : List Byte).length < 12 ∧ (imageT7.take 11).length < 12 := by decide

/-- One record too many; an undefined word; the longest image that fits. -/
theorem witness_LoadErrorsChangeNoState :
    State.reset.phase = .created ∧ State.reset.cfg.memCapacity < (List.replicate 393228 (0 : Byte)).length / 12 ∧
    (imageInvalid.length / 12 ≤ State.reset.cfg.memCapacity ∧ State.reset.cfg.invalidPolicy = .refuse ∧
      0 < imageInvalid.length / 12 ∧
      (decode .reference (recordWord State.reset.cfg.imageEndian imageInvalid 0)).isInvalid = true) ∧
    resetNoop.phase = .created ∧ resetNoop.cfg.invalidPolicy = .noop ∧
    (List.replicate 393216 (0 : Byte)).length / 12 ≤ resetNoop.cfg.memCapacity :=
  ⟨rfl, by rw [List.length_replicate]; decide, by decide, rfl, rfl, by rw [List.length_replicate]; decide⟩

theorem witness_SecondLoadIsRefused :
    idle.phase = .ready ∧ idle.fetch = none ∧ idle.cfg.reloadPolicy = .refuse ∧
    ∃ s : State, s.phase = .ready ∧ s.fetch = none ∧ s.cfg.reloadPolicy = .fresh :=
  ⟨rfl, rfl, rfl, { idle with cfg := { Config.reference with reloadPolicy := .fresh } }, rfl, rfl, rfl⟩

theorem witness_RunCycleWithoutAProgramDoesNothing :
    State.reset.phase = .created ∧ State.reset.cfg.runWhenCreated = .noop ∧
    ∃ s : State, s.phase = .created ∧ s.cfg.runWhenCreated = .error :=
  ⟨rfl, rfl, { State.reset with cfg := { Config.reference with runWhenCreated := .error } }, rfl, rfl⟩

/-- Both admitted phases; the greatest port and the first that does not exist. -/
theorem witness_WriteInputWritesOneInputPort :
    (State.reset.phase ≠ .destroyed ∧ State.reset.fetch = none ∧ State.reset.inPort.wf) ∧
    (idle.phase ≠ .destroyed ∧ idle.fetch = none ∧ idle.inPort.wf) ∧ (16383 : Nat) < 16384 ∧ (16384 : Nat) ≤ 16384 := by
  decide

theorem witness_ReadOutputReturnsTheOutputPort :
    (State.reset.phase ≠ .destroyed ∧ State.reset.fetch = none) ∧ (idle.phase ≠ .destroyed ∧ idle.fetch = none) ∧
    (16383 : Nat) < 16384 ∧ (16384 : Nat) ≤ 16384 := by decide

theorem witness_DestroyEndsTheInstance :
    (State.reset.phase ≠ .destroyed ∧ State.reset.fetch = none) ∧
    { State.reset with phase := .destroyed }.phase = .destroyed ∧ HostOp.runCycle ≠ .create := by decide

theorem witness_HostHasNoMoveDuringACycle : running.cycleInProgress ∧ ∃ t, step running = .next t := ⟨rfl, _, rfl⟩

theorem witness_HostActsBetweenCyclesInOrder :
    (State.reset.fetch = none ∧ State.reset.pending = []) ∧ idle.fetch = none ∧
    idle.pending = .runCycle :: [.destroy] := by decide

end Sys2Proof.Tests
end

section
/-! Load and the bytes after the last complete record (spec/20_memory.md R55). -/

namespace Sys2Proof.Machine

/-! ## A field read that ends inside the image (20_memory.md R54, R55) -/

theorem take_drop_append_of_le {α : Type} (image tail : List α) {o n : Nat} (h : o + n ≤ image.length) :
    ((image ++ tail).drop o).take n = (image.drop o).take n := by
  rw [List.drop_append_of_le_length (by omega), List.take_append_of_le_length (by rw [List.length_drop]; omega)]

theorem wordAt_append (e : Endian) (image tail : List Byte) {o : Nat} (h : o + 4 ≤ image.length) :
    wordAt e (image ++ tail) o = wordAt e image o := by
  rw [wordAt, take_drop_append_of_le image tail h, wordAt]

theorem doubleAt_append (e : Endian) (image tail : List Byte) {o : Nat} (h : o + 8 ≤ image.length) :
    doubleAt e (image ++ tail) o = doubleAt e image o := by
  rw [doubleAt, take_drop_append_of_le image tail h, doubleAt]

/-! ## A complete record lies inside the image (20_memory.md R52, R55) -/

theorem record_end_le_length {image : List Byte} {i : Nat} (h : i < recordCount image) :
    12 * i + 12 ≤ image.length := by
  unfold recordCount at h
  omega

theorem recordWord_append (e : Endian) (image tail : List Byte) {i : Nat} (h : i < recordCount image) :
    recordWord e (image ++ tail) i = recordWord e image i := by
  have hend := record_end_le_length h
  rw [recordWord, wordAt_append e image tail (by omega), wordAt_append e image tail (by omega), recordWord]

theorem recordConstant_append (e : Endian) (image tail : List Byte) {i : Nat} (h : i < recordCount image) :
    recordConstant e (image ++ tail) i = recordConstant e image i := by
  have hend := record_end_le_length h
  rw [recordConstant, doubleAt_append e image tail (by omega), doubleAt_append e image tail (by omega), recordConstant]

/-! ## A tail that completes no record adds no record (20_memory.md R55) -/

theorem recordCount_append_partial {image tail : List Byte} (himage : image.length % 12 = 0)
    (htail : tail.length < 12) : recordCount (image ++ tail) = recordCount image := by
  rw [recordCount, recordCount, List.length_append]
  omega

theorem imageWords_append (e : Endian) {image tail : List Byte}
    (hcount : recordCount (image ++ tail) = recordCount image) :
    imageWords e (image ++ tail) = imageWords e image := by
  rw [imageWords, imageWords, hcount]
  exact List.map_congr_left fun i hi => recordWord_append e image tail (List.mem_range.1 hi)

theorem imageConstants_append (e : Endian) {image tail : List Byte}
    (hcount : recordCount (image ++ tail) = recordCount image) :
    imageConstants e (image ++ tail) = imageConstants e image := by
  rw [imageConstants, imageConstants, hcount]
  exact List.map_congr_left fun i hi => recordConstant_append e image tail (List.mem_range.1 hi)

/-! ## Load sees an image only through its records (20_memory.md R58) -/

/-- The checks look at the number of records and at their words, the writes at these and at the constants. -/
theorem State.load_bytes_congr (s : State) {image other : List Byte}
    (hcount : recordCount other = recordCount image)
    (hwords : imageWords s.cfg.imageEndian other = imageWords s.cfg.imageEndian image)
    (hconsts : imageConstants s.cfg.imageEndian other = imageConstants s.cfg.imageEndian image) :
    s.load (.bytes other) = s.load (.bytes image) := by
  have hinstall : s.install other = s.install image := by
    rw [State.install, hwords, hconsts, hcount, State.install]
  simp only [State.load, loadCheck, hcount, hwords]
  split_ifs
  · rfl
  · rfl
  · simp only [hinstall]

/-- Settles O45: every field of a complete record ends before the tail, and the tail completes no record. -/
theorem partialRecordIsDropped : Obligations.PartialRecordIsDropped := by
  unfold Obligations.PartialRecordIsDropped
  intro s image tail himage htail
  have hcount := recordCount_append_partial himage htail
  exact ⟨s.load_bytes_congr hcount (imageWords_append _ hcount) (imageConstants_append _ hcount), hcount⟩

end Sys2Proof.Machine
end

section
/-! Decode, then encode (spec/30_encoding.md R75, R80): the word comes back, and the instruction is well formed. -/

namespace Sys2Proof

/-! ## The D-form (30_encoding.md R71, R81) -/

theorem encode_decodeD (c : OpcodeTables) (f : Fields) :
    encode c (decodeD c.primary f) = encodeD f.primary f.operandA f.operandB := by
  unfold decodeD
  split_ifs <;> simp_all only [encode]

theorem wellFormed_decodeD (c : OpcodeTables) {f : Fields} (h0 : f.primary ≠ 0) :
    (decodeD c.primary f).wellFormed c = true := by
  unfold decodeD
  split_ifs <;> simp_all [Instr.wellFormed]

/-! ## The S-form (30_encoding.md R72, R82, R83) -/

theorem encode_decodeCompare (c : OpcodeTables) {f : Fields} (h1 : f.secondary = c.secondary.compareZero) :
    encode c (decodeCompare c.mode f) = encodeS f.secondary f.mode f.bit20 f.immediate f.source := by
  unfold decodeCompare
  split_ifs <;> simp_all only [encode]

theorem wellFormed_decodeCompare (c : OpcodeTables) (f : Fields) :
    (decodeCompare c.mode f).wellFormed c = true := by
  unfold decodeCompare
  split_ifs <;> simp_all [Instr.wellFormed]

theorem encode_decodeS (c : OpcodeTables) (f : Fields) :
    encode c (decodeS c f) = encodeS f.secondary f.mode f.bit20 f.immediate f.source := by
  unfold decodeS
  split_ifs with hnoop hcompare
  · simp only [encode, hnoop]
  · exact encode_decodeCompare c hcompare
  all_goals simp_all only [encode]

theorem wellFormed_decodeS (c : OpcodeTables) (f : Fields) : (decodeS c f).wellFormed c = true := by
  unfold decodeS
  split_ifs with hnoop hcompare
  · rfl
  · exact wellFormed_decodeCompare c f
  all_goals simp_all [Instr.wellFormed]

/-! ## The form is chosen by primary_opcode alone (30_encoding.md R73) -/

theorem decode_sForm (c : OpcodeTables) {w : Word} (h0 : (fields w).primary = 0) :
    decode c w = decodeS c (fields w) := if_pos h0

theorem decode_dForm (c : OpcodeTables) {w : Word} (h0 : (fields w).primary ≠ 0) :
    decode c w = decodeD c.primary (fields w) := if_neg h0

theorem encode_decode (c : OpcodeTables) (w : Word) : encode c (decode c w) = w := by
  by_cases h0 : (fields w).primary = 0
  · rw [decode_sForm c h0, encode_decodeS, encodeS_fields w h0]
  · rw [decode_dForm c h0, encode_decodeD, encodeD_fields]

theorem wellFormed_decode (c : OpcodeTables) (w : Word) : (decode c w).wellFormed c = true := by
  by_cases h0 : (fields w).primary = 0
  · rw [decode_sForm c h0]
    exact wellFormed_decodeS c (fields w)
  · rw [decode_dForm c h0]
    exact wellFormed_decodeD c h0

end Sys2Proof
end

section
/-! The opcode map (spec/30_encoding.md R78, R81 to R83): its rows are disjoint, so the one row a word lies in tells
its operation. -/

namespace Sys2Proof.Laws.MatchesRow

/-! ## Every word lies in the row of its decoding -/

theorem statement_all : ∀ i : Instr, Statement i
  | .add a b => add a b
  | .sub a b => sub a b
  | .mult a b => mult a b
  | .div a b => div a b
  | .output p b => output p b
  | .select a b => select a b
  | .noop m t im s => noop m t im s
  | .compareZeroLt t im s => compareZeroLt t im s
  | .compareZeroLe t im s => compareZeroLe t im s
  | .compareZeroEq t im s => compareZeroEq t im s
  | .compareZeroGe t im s => compareZeroGe t im s
  | .compareZeroGt t im s => compareZeroGt t im s
  | .sqrt m t im s => sqrt m t im s
  | .copy m t im s => copy m t im s
  | .readInput m t im p => readInput m t im p
  | .invalidPrimary7 a b => invalidPrimary7 a b
  | .invalidPrimary8to15 p a b => invalidPrimary8to15 p a b
  | .invalidSecondary5 m t im s => invalidSecondary5 m t im s
  | .invalidSecondary6to7 o m t im s => invalidSecondary6to7 o m t im s
  | .invalidSecondary8to15 o m t im s => invalidSecondary8to15 o m t im s
  | .invalidCompareMode5 t im s => invalidCompareMode5 t im s
  | .invalidCompareMode6to7 m t im s => invalidCompareMode6to7 m t im s

theorem and_mask_decode (w : Word) : w &&& mask (decode .reference w) = value (decode .reference w) := by
  have h := statement_all (decode .reference w) (wellFormed_decode .reference w)
  rwa [encode_decode] at h

/-! ## The rows are disjoint -/

/-- The mask and match columns of the twenty-two rows, those of INVALID last (30_encoding.md R78, R81 to R83). -/
def rows : List (Word × Word) :=
  [(0xF0000000, 0x10000000), (0xF0000000, 0x20000000), (0xF0000000, 0x30000000), (0xF0000000, 0x40000000),
   (0xF0000000, 0x50000000), (0xF0000000, 0x60000000), (0xFF000000, 0x00000000), (0xFFE00000, 0x01000000),
   (0xFFE00000, 0x01200000), (0xFFE00000, 0x01400000), (0xFFE00000, 0x01600000), (0xFFE00000, 0x01800000),
   (0xFF000000, 0x02000000), (0xFF000000, 0x03000000), (0xFF000000, 0x04000000),
   (0xF0000000, 0x70000000), (0x80000000, 0x80000000), (0xFF000000, 0x05000000), (0xFE000000, 0x06000000),
   (0xF8000000, 0x08000000), (0xFFE00000, 0x01A00000), (0xFFC00000, 0x01C00000)]

theorem row_mem_rows (i : Instr) : (mask i, value i) ∈ rows := by
  cases i <;> simp [rows, mask, value]

/-- The two rows differ on a bit that both of them fix. -/
abbrev Apart (r r' : Word × Word) : Prop := r.2 &&& r'.1 ≠ r'.2 &&& r.1

theorem rows_pairwise_apart : rows.Pairwise Apart := by decide +kernel

theorem row_eq_of_shared_bits {r r' : Word × Word} (hr : r ∈ rows) (hr' : r' ∈ rows)
    (h : r.2 &&& r'.1 = r'.2 &&& r.1) : r = r' := by
  have hsymm : Std.Symm Apart := ⟨fun _ _ => Ne.symm⟩
  by_contra hne
  exact rows_pairwise_apart.forall hr hr' hne h

theorem matches_nodup : (rows.map Prod.snd).Nodup := by decide +kernel

theorem row_eq_of_match_eq {r r' : Word × Word} (hr : r ∈ rows) (hr' : r' ∈ rows) (h : r.2 = r'.2) : r = r' :=
  List.inj_on_of_nodup_map matches_nodup hr hr' h

/-- A word matches a row exactly when the row is that of its decoding. -/
theorem and_mask_eq_iff {w m v : Word} (hrow : (m, v) ∈ rows) :
    w &&& m = v ↔ value (decode .reference w) = v := by
  have hw := and_mask_decode w
  have hdecode := row_mem_rows (decode .reference w)
  constructor
  · intro h
    have hshared : value (decode .reference w) &&& m = v &&& mask (decode .reference w) := by
      rw [← hw, ← h, BitVec.and_assoc, BitVec.and_assoc, BitVec.and_comm m]
    exact congrArg Prod.snd (row_eq_of_shared_bits hdecode hrow hshared)
  · intro h
    have hmask : mask (decode .reference w) = m := congrArg Prod.fst (row_eq_of_match_eq hdecode hrow h)
    rw [← hmask, hw, h]

/-! ## The match column tells the operation -/

/-- The fifteen operations and INVALID told apart by the match column alone (30_encoding.md R78, R81 to R83). -/
theorem value_tells_operation (i : Instr) :
    (value i = 0x10000000 ↔ ∃ a b, i = .add a b) ∧
    (value i = 0x20000000 ↔ ∃ a b, i = .sub a b) ∧
    (value i = 0x30000000 ↔ ∃ a b, i = .mult a b) ∧
    (value i = 0x40000000 ↔ ∃ a b, i = .div a b) ∧
    (value i = 0x50000000 ↔ ∃ p b, i = .output p b) ∧
    (value i = 0x60000000 ↔ ∃ a b, i = .select a b) ∧
    (value i = 0x00000000 ↔ ∃ m t im s, i = .noop m t im s) ∧
    (value i = 0x01000000 ↔ ∃ t im s, i = .compareZeroLt t im s) ∧
    (value i = 0x01200000 ↔ ∃ t im s, i = .compareZeroLe t im s) ∧
    (value i = 0x01400000 ↔ ∃ t im s, i = .compareZeroEq t im s) ∧
    (value i = 0x01600000 ↔ ∃ t im s, i = .compareZeroGe t im s) ∧
    (value i = 0x01800000 ↔ ∃ t im s, i = .compareZeroGt t im s) ∧
    (value i = 0x02000000 ↔ ∃ m t im s, i = .sqrt m t im s) ∧
    (value i = 0x03000000 ↔ ∃ m t im s, i = .copy m t im s) ∧
    (value i = 0x04000000 ↔ ∃ m t im p, i = .readInput m t im p) ∧
    (i.isInvalid = true ↔
      value i ≠ 0x10000000 ∧ value i ≠ 0x20000000 ∧ value i ≠ 0x30000000 ∧ value i ≠ 0x40000000 ∧
      value i ≠ 0x50000000 ∧ value i ≠ 0x60000000 ∧ value i ≠ 0x00000000 ∧ value i ≠ 0x01000000 ∧
      value i ≠ 0x01200000 ∧ value i ≠ 0x01400000 ∧ value i ≠ 0x01600000 ∧ value i ≠ 0x01800000 ∧
      value i ≠ 0x02000000 ∧ value i ≠ 0x03000000 ∧ value i ≠ 0x04000000) := by
  cases i <;> simp [value, Instr.isInvalid]

/-- Settles O4: the rows are disjoint and a word lies in the row of its decoding, so to match a row is to decode to an
instruction with the row's match column. -/
theorem opcodeMapRowsSelectTheirOperation : Obligations.OpcodeMapRowsSelectTheirOperation := by
  unfold Obligations.OpcodeMapRowsSelectTheirOperation
  intro w
  simp (disch := decide) only [and_mask_eq_iff, ne_eq]
  exact value_tells_operation (decode .reference w)

end Sys2Proof.Laws.MatchesRow
end

section
/-! What ADD, SUB and MULT make of zeros, infinities and NaNs (spec/40_dform_arithmetic.md R102 to R104). -/

namespace Sys2Proof.F64

/-! ## Addition -/

theorem fadd_of_isNaN {a b : F64} (h : a.isNaN = true ∨ b.isNaN = true) : fadd a b = .nan :=
  if_pos (by simpa using h)

theorem fadd_of_isFinite {a b : F64} (ha : a.isFinite = true) (hb : b.isFinite = true) :
    fadd a b = if a.signedUnits + b.signedUnits = 0 then .value (zero (a.sign && b.sign))
      else .value (pack (decide (a.signedUnits + b.signedUnits < 0))
        (roundBits (a.signedUnits + b.signedUnits).natAbs 1)) := by
  simp [fadd, isFinite_not_isNaN ha, isFinite_not_isNaN hb, isFinite_not_isInf ha, isFinite_not_isInf hb]

theorem fadd_of_isFinite_of_isInf {a b : F64} (ha : a.isFinite = true) (hb : b.isInf = true) :
    fadd a b = .value b := by
  simp [fadd, isFinite_not_isNaN ha, isFinite_not_isInf ha, isInf_classes hb, hb]

theorem fadd_of_isInf_of_sign_ne {a b : F64} (ha : a.isInf = true) (hb : b.isInf = true) (hs : a.sign ≠ b.sign) :
    fadd a b = .nan := by
  simp [fadd, isInf_classes ha, isInf_classes hb, ha, hb, hs]

theorem units_ne_zero {v : F64} (hz : v.isZero = false) : v.units ≠ 0 := fun h => by
  simp [isZero_of_units h] at hz

theorem signedUnits_ne_zero {v : F64} (hz : v.isZero = false) : v.signedUnits ≠ 0 :=
  Int.natAbs_ne_zero.1 (by rw [natAbs_signedUnits]; exact units_ne_zero hz)

/-- The sign of a value other than zero is the sign of its exact number of units. -/
theorem signedUnits_neg_iff {v : F64} (hz : v.isZero = false) : v.signedUnits < 0 ↔ v.sign = true := by
  unfold signedUnits
  cases v.sign
  · simp
  · simpa using Nat.pos_of_ne_zero (units_ne_zero hz)

theorem fadd_posZero_left {v : F64} (hn : v.isNaN = false) (hz : v.isZero = false) :
    fadd posZero v = .value v := by
  rcases isFinite_or_isInf_or_isNaN v with hf | hi | hnan
  · have hsign : decide (v.signedUnits < 0) = v.sign := by simp [signedUnits_neg_iff hz]
    rw [fadd_of_isFinite posZero_isFinite hf, show posZero.signedUnits = 0 by decide, zero_add,
      if_neg (signedUnits_ne_zero hz), hsign, natAbs_signedUnits, pack_exact hf]
  · exact fadd_of_isFinite_of_isInf posZero_isFinite hi
  · simp [hn] at hnan

/-! ## Subtraction -/

theorem fsub_self_of_isFinite {v : F64} (h : v.isFinite = true) : fsub v v = .value posZero := by
  have hsum : v.signedUnits + v.negate.signedUnits = 0 := by rw [negate_signedUnits, Int.add_right_neg]
  rw [fsub, fadd_of_isFinite h (by rwa [negate_isFinite]), if_pos hsum, negate_sign, Bool.and_not_self]
  rfl

theorem fsub_self_of_not_isFinite {v : F64} (h : v.isFinite = false) : fsub v v = .nan := by
  rcases isFinite_or_isInf_or_isNaN v with hf | hi | hnan
  · simp [h] at hf
  · exact fadd_of_isInf_of_sign_ne hi (by rwa [negate_isInf]) (by simp)
  · exact fadd_of_isNaN (.inl hnan)

theorem fsub_posZero_left {v : F64} (hn : v.isNaN = false) (hz : v.isZero = false) :
    fsub posZero v = .value v.negate :=
  fadd_posZero_left (by rwa [negate_isNaN]) (by rwa [negate_isZero])

/-! ## Multiplication -/

theorem fmul_comm (a b : F64) : fmul a b = fmul b a := by
  rw [fmul, fmul, Bool.or_comm b.isNaN, Bool.or_comm b.isInf, Bool.or_comm b.isZero, bne_comm (a := b.sign),
    Nat.mul_comm b.units]

theorem fmul_of_isZero_of_isInf {a b : F64} (ha : a.isZero = true) (hb : b.isInf = true) : fmul a b = .nan := by
  simp [fmul, isZero_classes ha, isInf_classes hb, ha, hb]

theorem roundBits_zero (den : Nat) : roundBits 0 den = 0 := by
  simp [roundBits, divNearestEven]

theorem fmul_of_isZero_of_isFinite {a b : F64} (ha : a.isZero = true) (hb : b.isFinite = true) :
    fmul a b = .value (zero (a.sign != b.sign)) := by
  simp [fmul, isZero_classes ha, isFinite_not_isNaN hb, isFinite_not_isInf hb, units_of_isZero ha, roundBits_zero,
    zero]

end Sys2Proof.F64
end

section
/-! The D-form arithmetic instructions (spec/40_dform_arithmetic.md R110 to R114): their words, what each answers,
and the obligations. -/

namespace Sys2Proof.Machine

/-! ## The words of a D-form operation (30_encoding.md R71, R78) -/

theorem encodesD_of_decodeD {p : BitVec 4} {i : Addr → Addr → Instr} (h0 : p ≠ 0)
    (h : ∀ (f : Fields) (a b : Addr),
      decodeD OpcodeTables.reference.primary { f with primary := p, operandA := a, operandB := b } = i a b) :
    EncodesD (p.toNat * 2 ^ 28) i := fun a b => by
  rw [ofNat_encodeD, decode_encodeD _ _ _ _ h0, h]

/-! ## What the four instructions answer -/

theorem exec_add (a b : Addr) (s : State) :
    exec (.add a b) s = s.writeResult (F64.fadd (s.mem.read a.toNat) (s.mem.read b.toNat)) := rfl

theorem exec_sub (a b : Addr) (s : State) :
    exec (.sub a b) s = s.writeResult (F64.fsub (s.mem.read a.toNat) (s.mem.read b.toNat)) := rfl

theorem exec_mult (a b : Addr) (s : State) :
    exec (.mult a b) s = s.writeResult (F64.fmul (s.mem.read a.toNat) (s.mem.read b.toNat)) := rfl

theorem exec_div_of_feq0 {a b : Addr} {s : State} (h : (s.mem.read b.toNat).feq0 = true) :
    exec (.div a b) s = .next s.advance := if_pos h

theorem exec_div_of_not_feq0 {a b : Addr} {s : State} (h : (s.mem.read b.toNat).feq0 = false) :
    exec (.div a b) s = s.writeResult (F64.fdiv (s.mem.read a.toNat) (s.mem.read b.toNat)) :=
  if_neg (by rw [State.slotOperand, addrIndex, h]; exact Bool.false_ne_true)

theorem completesWith_of_writeResult {i : Instr} {s : State} {r : FpResult} (h : exec i s = s.writeResult r)
    (hs : s.CanWriteSlot) : CompletesWith i s fun t => ResultWritten s t r := by
  obtain ⟨t, ht, hw⟩ := State.writeResult_resultWritten hs r
  exact ⟨t, h.trans ht, hw⟩

theorem completesWith_of_advance {i : Instr} {s : State} (h : exec i s = .next s.advance) :
    CompletesWith i s (OnlyAdvanced s) := ⟨s.advance, h, s.advance_onlyAdvanced⟩

/-! ## The obligations -/

/-- Settles O15: ADD is the write of a sum, and that write completes where the own slot exists. -/
theorem addWritesTheSumToItsOwnSlot : Obligations.AddWritesTheSumToItsOwnSlot := by
  unfold Obligations.AddWritesTheSumToItsOwnSlot
  refine ⟨encodesD_of_decodeD (p := 1) (by decide) fun _ _ _ => rfl,
    fun a b s => completesWith_of_writeResult (exec_add a b s),
    fun x y => F64.fadd_of_isNaN, ?infinities, ?overflow, ?sum⟩
  case infinities => exact F64.fadd_of_isInf_of_sign_ne (F64.inf_isInf _) (F64.inf_isInf _) (by decide)
  case overflow => decide +kernel
  case sum => decide +kernel

/-- Settles O16: a difference is a sum with the subtrahend negated; the exact sum of a finite value and its negation
is zero, and a value added to `+0.0` rounds to itself. -/
theorem subWritesTheDifferenceToItsOwnSlot : Obligations.SubWritesTheDifferenceToItsOwnSlot := by
  unfold Obligations.SubWritesTheDifferenceToItsOwnSlot
  refine ⟨encodesD_of_decodeD (p := 2) (by decide) fun _ _ _ => rfl,
    fun a b s => completesWith_of_writeResult (exec_sub a b s),
    fun x => F64.fsub_self_of_isFinite, fun x => F64.fsub_self_of_not_isFinite,
    fun x => F64.fsub_posZero_left, F64.fsub_self_of_isFinite F64.posZero_isFinite, ?negZero, ?difference⟩
  case negZero => decide +kernel
  case difference => decide +kernel

/-- Settles O17: the corner cases with the zero on the left, and multiplication commutes. -/
theorem multWritesTheProductToItsOwnSlot : Obligations.MultWritesTheProductToItsOwnSlot := by
  unfold Obligations.MultWritesTheProductToItsOwnSlot
  refine ⟨encodesD_of_decodeD (p := 3) (by decide) fun _ _ _ => rfl,
    fun a b s => completesWith_of_writeResult (exec_mult a b s), ?nan, ?zero, ?overflow, ?subnormal, ?product⟩
  case nan =>
    intro x y hx hy
    rw [F64.fmul_comm y x, and_self]
    exact F64.fmul_of_isZero_of_isInf hx hy
  case zero =>
    intro x y hx hy
    rw [F64.fmul_comm y x, and_self]
    exact F64.fmul_of_isZero_of_isFinite hx hy
  case overflow => decide +kernel
  case subnormal => decide +kernel
  case product => decide +kernel

/-- Settles O18: the test of the divisor chooses between the bare advance and the write of a quotient. -/
theorem divWritesTheQuotientUnlessTheDivisorIsZero : Obligations.DivWritesTheQuotientUnlessTheDivisorIsZero := by
  unfold Obligations.DivWritesTheQuotientUnlessTheDivisorIsZero
  refine ⟨encodesD_of_decodeD (p := 4) (by decide) fun _ _ _ => rfl,
    fun a b s h => completesWith_of_advance (exec_div_of_feq0 h),
    fun a b s h => completesWith_of_writeResult (exec_div_of_not_feq0 h), ?quotient⟩
  case quotient => decide +kernel

end Sys2Proof.Machine
end

section
/-! The D-form data movement instructions (spec/41_dform_output_select.md R120 to R124): what each answers, and the
obligations. -/

namespace Sys2Proof.Machine

/-! ## What the two instructions answer -/

theorem exec_output (p b : Addr) (s : State) :
    exec (.output p b) s = .next (s.writePort p (s.mem.read b.toNat)) := rfl

theorem exec_select (a b : Addr) (s : State) :
    exec (.select a b) s = s.writeSlot (if s.status then s.mem.read a.toNat else s.mem.read b.toNat) := rfl

theorem completesWith_of_writePort {i : Instr} {s : State} {p : Addr} {v : F64}
    (h : exec i s = .next (s.writePort p v)) (hp : s.outPort.wf) :
    CompletesWith i s fun t => PortWritten s t p.toNat v :=
  ⟨s.writePort p v, h, State.writePort_portWritten hp p v⟩

theorem completesWith_of_writeSlot {i : Instr} {s : State} {v : F64} (h : exec i s = s.writeSlot v)
    (hs : s.CanWriteSlot) : CompletesWith i s fun t => SlotWritten s t v ∧ t.draws = s.draws := by
  obtain ⟨t, ht, hw⟩ := State.writeSlot_slotWritten hs v
  exact ⟨t, h.trans ht, hw⟩

/-! ## The obligations -/

/-- Settles O19: OUTPUT is the write of a slot's bits to one output port, which completes in every state. -/
theorem outputCopiesASlotToAnOutputPort : Obligations.OutputCopiesASlotToAnOutputPort := by
  unfold Obligations.OutputCopiesASlotToAnOutputPort
  exact ⟨encodesD_of_decodeD (p := 5) (by decide) fun _ _ _ => rfl,
    fun p b s => completesWith_of_writePort (exec_output p b s)⟩

/-- Settles O20: SELECT is the write of the slot the flag chooses, and that write completes where the own slot
exists. -/
theorem selectChoosesByTheStatusFlag : Obligations.SelectChoosesByTheStatusFlag := by
  unfold Obligations.SelectChoosesByTheStatusFlag
  exact ⟨encodesD_of_decodeD (p := 6) (by decide) fun _ _ _ => rfl,
    fun a b s => completesWith_of_writeSlot (exec_select a b s)⟩

end Sys2Proof.Machine
end

section
/-! What the square root makes of NaNs, zeros and values below zero (spec/40_dform_arithmetic.md R102, R103). -/

namespace Sys2Proof.F64

theorem fsqrt_of_isNaN {v : F64} (h : v.isNaN = true) : fsqrt v = .nan := if_pos h

theorem fsqrt_of_isZero {v : F64} (h : v.isZero = true) : fsqrt v = .value v := by
  obtain ⟨-, hnan, -⟩ := isZero_classes h
  simp [fsqrt, hnan, h]

theorem fsqrt_of_flt0 {v : F64} (h : v.flt0 = true) : fsqrt v = .nan := by
  simp only [flt0, Bool.and_eq_true, Bool.not_eq_true'] at h
  obtain ⟨⟨hnan, hzero⟩, hsign⟩ := h
  simp [fsqrt, hnan, hzero, hsign]

theorem fsqrt_posInf : fsqrt (inf false) = .value (inf false) := by
  simp [fsqrt, isInf_classes (inf_isInf false), inf_isInf, inf_sign]

end Sys2Proof.F64
end

section
/-! The S-form instructions (spec/42_sform.md R130 to R141): their words, what each answers, what an instruction that
completes leaves unchanged, and the obligations. -/

namespace Sys2Proof.Machine

/-! ## The words of an S-form operation (30_encoding.md R72, R78) -/

theorem encodesS_of_decodeS {o : BitVec 4} {i : BitVec 3 → BitVec 1 → BitVec 6 → Addr → Instr}
    (h : ∀ (f : Fields) (m : BitVec 3) (t : BitVec 1) (im : BitVec 6) (src : Addr), decodeS .reference
      { f with secondary := o, mode := m, bit20 := t, immediate := im, source := src } = i m t im src) :
    EncodesS (o.toNat * 2 ^ 24) i := fun m t im src => by
  rw [ofNat_encodeS, decode_encodeS, h]

theorem encodesCompare_of_decodeCompare {m : BitVec 3} {i : BitVec 1 → BitVec 6 → Addr → Instr}
    (h : ∀ (f : Fields) (t : BitVec 1) (im : BitVec 6) (src : Addr), decodeCompare OpcodeTables.reference.mode
      { f with mode := m, bit20 := t, immediate := im, source := src } = i t im src) :
    EncodesCompare (Opcode.compareZero.toNat * 2 ^ 24 + m.toNat * 2 ^ 21) i := fun t im src => by
  rw [ofNat_encodeS, decode_encodeS]
  exact h { fields (encodeS Opcode.compareZero m t im src) with secondary := Opcode.compareZero } t im src

/-! ## What the instructions answer -/

theorem exec_noop (m : BitVec 3) (t : BitVec 1) (im : BitVec 6) (src : Addr) (s : State) :
    exec (.noop m t im src) s = .next s.advance := rfl

theorem exec_sqrt (m : BitVec 3) (t : BitVec 1) (im : BitVec 6) (src : Addr) (s : State) :
    exec (.sqrt m t im src) s = s.writeResult (F64.fsqrt (s.mem.read src.toNat)) := rfl

theorem exec_copy (m : BitVec 3) (t : BitVec 1) (im : BitVec 6) (src : Addr) (s : State) :
    exec (.copy m t im src) s = s.writeSlot (s.mem.read src.toNat) := rfl

theorem exec_readInput (m : BitVec 3) (t : BitVec 1) (im : BitVec 6) (p : Addr) (s : State) :
    exec (.readInput m t im p) s = s.writeSlot (s.inPort.read p.toNat) := rfl

theorem completesWith_of_compareZero {i : Instr} {s : State} {r : Relation} {src : Addr}
    (h : exec i s = .next (s.compareZero r src)) :
    CompletesWith i s (StatusWritten s · (r.holdsOfZero (s.mem.read src.toNat))) :=
  ⟨s.compareZero r src, h, s.compareZero_statusWritten r src⟩

/-! ## What an instruction that completes leaves unchanged (43_sequencer_and_host.md R154) -/

/-- Everything an instruction that answers a next state can have done. -/
theorem exec_next_cases {i : Instr} {s u : State} (h : exec i s = .next u) :
    (∃ v d, writesSlot i = true ∧ u = { s with mem := s.mem.write s.pc v, draws := d }.advance) ∨
      (∃ p b, i = .output p b ∧ u = s.writePort p (s.slotOperand b)) ∨
      (∃ b, writesStatus i = true ∧ u = s.setStatus b) ∨ u = s.advance := by
  cases execDoes i s with
  | slot v d hi he => cases he.symm.trans h; exact .inl ⟨v, d, hi, rfl⟩
  | noSlot hi hpc he => cases he.symm.trans h
  | port p b hi he => cases he.symm.trans h; exact .inr (.inl ⟨p, b, hi, rfl⟩)
  | flag b hi he => cases he.symm.trans h; exact .inr (.inr (.inl ⟨b, hi, rfl⟩))
  | advance hs hp he => cases he.symm.trans h; exact .inr (.inr (.inr rfl))
  | refuse hi hp he => cases he.symm.trans h

theorem exec_keeps_imem {i : Instr} {s u : State} (h : exec i s = .next u) : u.imem = s.imem := by
  obtain ⟨_, _, -, rfl⟩ | ⟨_, _, -, rfl⟩ | ⟨_, -, rfl⟩ | rfl := exec_next_cases h <;> rfl

theorem exec_keeps_status {i : Instr} {s u : State} (hi : writesStatus i = false) (h : exec i s = .next u) :
    u.status = s.status := by
  obtain ⟨_, _, -, rfl⟩ | ⟨_, _, -, rfl⟩ | ⟨_, hflag, -⟩ | rfl := exec_next_cases h
  · rfl
  · rfl
  · simp [hi] at hflag
  · rfl

/-- The own slot, and that only of an instruction that writes it, is the one slot that can read otherwise. -/
theorem exec_keeps_slot {i : Instr} {s u : State} {a : Nat} (hm : s.mem.wf) (h : exec i s = .next u)
    (ha : a = s.pc → writesSlot i = false) : u.mem.read a = s.mem.read a := by
  obtain ⟨v, d, hslot, rfl⟩ | ⟨_, _, -, rfl⟩ | ⟨_, -, rfl⟩ | rfl := exec_next_cases h
  · have hne : a ≠ s.pc := fun heq => by simp [ha heq] at hslot
    exact Memory.read_write_other hm hne v
  · rfl
  · rfl
  · rfl

/-! ## The obligations -/

/-- Settles O21: an instruction can change its own slot alone, and a line that is a NOOP does not write its own. -/
theorem noopOnlyAdvances : Obligations.NoopOnlyAdvances := by
  unfold Obligations.NoopOnlyAdvances
  refine ⟨encodesS_of_decodeS (o := 0) fun _ _ _ _ _ => rfl,
    fun m t im src s => completesWith_of_advance (exec_noop m t im src s), ?kept⟩
  case kept =>
    rintro s u w line a hm hready hw hstep hline ⟨m, t, im, src, hnoop⟩
    have hexec : exec (decode s.cfg.opcodes w) s = .next u :=
      (step_of_fetch (State.fetch_eq_some.2 ⟨hready, hw⟩)).symm.trans hstep
    refine ⟨exec_keeps_slot hm hexec fun ha => ?_, exec_keeps_imem hexec⟩
    have hown : w = line := Option.some.inj (hw.symm.trans (ha ▸ hline))
    rw [hown, hnoop]
    rfl

/-- Settles O22: each mode is the write of its relation to the flag, and `exec_next_cases` has no other writer. -/
theorem compareZeroWritesTheStatusFlag : Obligations.CompareZeroWritesTheStatusFlag := by
  unfold Obligations.CompareZeroWritesTheStatusFlag
  refine ⟨encodesCompare_of_decodeCompare (m := 0) fun _ _ _ _ => rfl,
    encodesCompare_of_decodeCompare (m := 1) fun _ _ _ _ => rfl,
    encodesCompare_of_decodeCompare (m := 2) fun _ _ _ _ => rfl,
    encodesCompare_of_decodeCompare (m := 3) fun _ _ _ _ => rfl,
    encodesCompare_of_decodeCompare (m := 4) fun _ _ _ _ => rfl,
    fun t im src s => ⟨completesWith_of_compareZero (r := .lt) rfl, completesWith_of_compareZero (r := .le) rfl,
      completesWith_of_compareZero (r := .eq) rfl, completesWith_of_compareZero (r := .ge) rfl,
      completesWith_of_compareZero (r := .gt) rfl⟩,
    fun i s u => exec_keeps_status, by decide, by decide, by decide, by decide, by decide, ?nan, by decide⟩
  case nan =>
    intro v hv
    simp [F64.fge0, hv]

/-- Settles O23: SQRT is the write of a root, a NaN included, and that write completes where the own slot exists. -/
theorem sqrtWritesTheRootToItsOwnSlot : Obligations.SqrtWritesTheRootToItsOwnSlot := by
  unfold Obligations.SqrtWritesTheRootToItsOwnSlot
  refine ⟨encodesS_of_decodeS (o := 2) fun _ _ _ _ _ => rfl,
    fun m t im src s => completesWith_of_writeResult (exec_sqrt m t im src s),
    fun v h => h.elim F64.fsqrt_of_flt0 F64.fsqrt_of_isNaN, F64.fsqrt_of_isZero (by decide),
    F64.fsqrt_of_isZero (by decide), F64.fsqrt_posInf, ?nine, ?two⟩
  case nine => decide +kernel
  case two => decide +kernel

/-- Settles O24: COPY is the write of the slot's bits to the own slot, which completes where that slot exists. -/
theorem copyMovesASlotToItsOwnSlot : Obligations.CopyMovesASlotToItsOwnSlot := by
  unfold Obligations.CopyMovesASlotToItsOwnSlot
  exact ⟨encodesS_of_decodeS (o := 3) fun _ _ _ _ _ => rfl,
    fun m t im src s => completesWith_of_writeSlot (exec_copy m t im src s)⟩

/-- Settles O25: READ_INPUT is the write of the port's bits to the own slot; the input ports are in the frame of that
write, and are empty after reset. -/
theorem readInputMovesAPortToItsOwnSlot : Obligations.ReadInputMovesAPortToItsOwnSlot := by
  unfold Obligations.ReadInputMovesAPortToItsOwnSlot
  exact ⟨encodesS_of_decodeS (o := 4) fun _ _ _ _ _ => rfl,
    fun m t im p s hs => ⟨completesWith_of_writeSlot (exec_readInput m t im p s) hs, Memory.read_nil _⟩⟩

end Sys2Proof.Machine
end

section
/-! The step of a line (spec/43_sequencer_and_host.md R150) and destroy (R170): when an instruction completes and how
little it changes, what a destroyed instance answers, and the obligations. -/

namespace Sys2Proof.Machine

/-! ## A line of a program completes (43_sequencer_and_host.md R150; 60_exceptions.md R180) -/

/-- The two ways in which an instruction stops are the slot that does not exist and the refused INVALID line. -/
theorem exec_completes {i : Instr} {s : State} (hpc : s.pc < s.cfg.memCapacity)
    (hvalid : s.cfg.invalidPolicy = .refuse → i.isInvalid = false) : ∃ t, exec i s = .next t := by
  cases execDoes i s with
  | slot v d hi he => exact ⟨_, he⟩
  | noSlot hi hge he => omega
  | port p b hi he => exact ⟨_, he⟩
  | flag b hi he => exact ⟨_, he⟩
  | advance hs hp he => exact ⟨_, he⟩
  | refuse hi hp he => simp [hvalid hp] at hi

theorem State.Inv.pc_lt_memCapacity {s : State} {w : Word} (hs : s.Inv) (h : s.fetch = some w) :
    s.pc < s.cfg.memCapacity := (State.fetch_pc_lt h).trans_le hs.lines_fit

theorem State.Inv.exec_fetched_completes {s : State} {w : Word} (hs : s.Inv) (h : s.fetch = some w) :
    ∃ t, exec (decode s.cfg.opcodes w) s = .next t :=
  exec_completes (hs.pc_lt_memCapacity h) fun hp => hs.all_defined hp w (State.fetch_mem h)

/-! ## What an instruction that completes changes (43_sequencer_and_host.md R150, R154) -/

theorem exec_kept {i : Instr} {s t : State} (h : exec i s = .next t) : Kept s t := by
  obtain ⟨_, _, -, rfl⟩ | ⟨_, _, -, rfl⟩ | ⟨_, -, rfl⟩ | rfl := exec_next_cases h <;>
    exact ⟨rfl, rfl, rfl, rfl, rfl, rfl, rfl⟩

/-- The port that OUTPUT names is the one output port that can read otherwise. -/
theorem writePort_keeps_port {s : State} {port b : Addr} {p : Nat} (ho : s.outPort.wf)
    (hp : writesPort (.output port b) ≠ some p) (v : F64) :
    (s.writePort port v).outPort.read p = s.outPort.read p :=
  Memory.read_write_other ho (fun heq => hp (congrArg some heq.symm)) v

theorem exec_changes_at_most_one {i : Instr} {s t : State} (hm : s.mem.wf) (ho : s.outPort.wf)
    (h : exec i s = .next t) :
    ((∀ a, a ≠ s.pc → t.mem.read a = s.mem.read a) ∧ t.outPort = s.outPort ∧ t.status = s.status) ∨
      ((∀ p, writesPort i ≠ some p → t.outPort.read p = s.outPort.read p) ∧ t.mem = s.mem ∧ t.status = s.status) ∨
      (t.mem = s.mem ∧ t.outPort = s.outPort) := by
  obtain ⟨v, d, -, rfl⟩ | ⟨port, b, rfl, rfl⟩ | ⟨b, -, rfl⟩ | rfl := exec_next_cases h
  · exact .inl ⟨fun a ha => Memory.read_write_other hm ha v, rfl, rfl⟩
  · exact .inr (.inl ⟨fun p hp => writePort_keeps_port ho hp _, rfl, rfl⟩)
  · exact .inr (.inr ⟨rfl, rfl⟩)
  · exact .inr (.inr ⟨rfl, rfl⟩)

/-! ## A destroyed instance (43_sequencer_and_host.md R160, R170) -/

theorem State.fetch_none_of_phase_ne_ready {s : State} (h : s.phase ≠ .ready) : s.fetch = none :=
  Option.eq_none_iff_forall_ne_some.2 fun _ hw => h (State.fetch_eq_some.1 hw).1

theorem hostDestroy_of_not_destroyed {s : State} (h : s.phase ≠ .destroyed) :
    hostDestroy s = .next { s with phase := .destroyed } := by
  cases hp : s.phase with
  | created => simp only [hostDestroy, hp]
  | ready => simp only [hostDestroy, hp]
  | destroyed => exact absurd hp h

theorem hostOp_destroy {s : State} (h : s.fetch = none) : hostOp .destroy s = hostDestroy s :=
  if_neg (by simp [h])

theorem hostOp_of_destroyed {op : HostOp} {s : State} (h : s.phase = .destroyed) (hop : op ≠ .create) :
    hostOp op s = .refused .instanceDestroyed := by
  have hfetch : s.fetch = none := State.fetch_none_of_phase_ne_ready (by simp [h])
  rw [hostOp.eq_def, if_neg (by simp [hfetch])]
  cases op with
  | create => exact absurd rfl hop
  | load source => simp only [hostLoad, h]
  | runCycle => simp only [hostRunCycle, h]
  | writeInput port v => simp only [hostWriteInput, h]
  | readOutput port => simp only [hostReadOutput, h]
  | destroy => simp only [hostDestroy, h]

/-! ## The obligations -/

/-- Settles O28: under the invariant the own slot of a line exists and no line that is refused stands in the program,
so the instruction completes, and `exec_next_cases` has one write in each of its cases. -/
theorem stepIsAtomicAndTotal : Obligations.StepIsAtomicAndTotal := by
  unfold Obligations.StepIsAtomicAndTotal
  intro s w hs hready hw
  have hfetch : s.fetch = some w := State.fetch_eq_some.2 ⟨hready, hw⟩
  have hstep := step_of_fetch hfetch
  obtain ⟨t, ht⟩ := hs.exec_fetched_completes hfetch
  exact ⟨t, hstep.trans ht, hstep, exec_kept ht, exec_changes_at_most_one hs.mem_wf hs.outPort_wf ht⟩

/-- Settles O51: each operation but create looks at the phase, and the destroyed phase is its refusal. -/
theorem destroyEndsTheInstance : Obligations.DestroyEndsTheInstance := by
  unfold Obligations.DestroyEndsTheInstance
  exact ⟨fun s hphase hfetch => (hostOp_destroy hfetch).trans (hostDestroy_of_not_destroyed hphase),
    fun s op => hostOp_of_destroyed⟩

end Sys2Proof.Machine
end

section
/-! Encode, then decode, under legal opcode tables (spec/30_encoding.md R75, R77, R80): which code selects which
operation, and the obligations on the codec. -/

namespace Sys2Proof

/-! ## What each code of a field selects (30_encoding.md R77, R78, R81 to R83) -/

/-- The D-form read off the primary opcode. -/
structure PrimarySelects (t : PrimaryCodes) (f : Fields) : Prop where
  add     : f.primary = t.add → decodeD t f = .add f.operandA f.operandB
  sub     : f.primary = t.sub → decodeD t f = .sub f.operandA f.operandB
  mult    : f.primary = t.mult → decodeD t f = .mult f.operandA f.operandB
  div     : f.primary = t.div → decodeD t f = .div f.operandA f.operandB
  output  : f.primary = t.output → decodeD t f = .output f.operandA f.operandB
  select  : f.primary = t.select → decodeD t f = .select f.operandA f.operandB
  seven   : f.primary = 7 → 7 ∉ t.codes → decodeD t f = .invalidPrimary7 f.operandA f.operandB
  other   : f.primary ≠ 7 → f.primary ∉ t.codes → decodeD t f = .invalidPrimary8to15 f.primary f.operandA f.operandB
  invalid : (decodeD t f).isInvalid = true ↔ f.primary ∉ t.codes

/-- COMPARE_ZERO read off the compare mode. -/
structure ModeSelects (t : ModeCodes) (f : Fields) : Prop where
  lt      : f.mode = t.lt → decodeCompare t f = .compareZeroLt f.bit20 f.immediate f.source
  le      : f.mode = t.le → decodeCompare t f = .compareZeroLe f.bit20 f.immediate f.source
  eq      : f.mode = t.eq → decodeCompare t f = .compareZeroEq f.bit20 f.immediate f.source
  ge      : f.mode = t.ge → decodeCompare t f = .compareZeroGe f.bit20 f.immediate f.source
  gt      : f.mode = t.gt → decodeCompare t f = .compareZeroGt f.bit20 f.immediate f.source
  five    : f.mode = 5 → 5 ∉ t.codes → decodeCompare t f = .invalidCompareMode5 f.bit20 f.immediate f.source
  other   : f.mode ≠ 5 → f.mode ∉ t.codes →
    decodeCompare t f = .invalidCompareMode6to7 f.mode f.bit20 f.immediate f.source
  invalid : (decodeCompare t f).isInvalid = true ↔ f.mode ∉ t.codes

/-- The S-form read off the secondary opcode. -/
structure SecondarySelects (c : OpcodeTables) (f : Fields) : Prop where
  noop        : f.secondary = c.secondary.noop → decodeS c f = .noop f.mode f.bit20 f.immediate f.source
  compareZero : f.secondary = c.secondary.compareZero → decodeS c f = decodeCompare c.mode f
  sqrt        : f.secondary = c.secondary.sqrt → decodeS c f = .sqrt f.mode f.bit20 f.immediate f.source
  copy        : f.secondary = c.secondary.copy → decodeS c f = .copy f.mode f.bit20 f.immediate f.source
  readInput   : f.secondary = c.secondary.readInput → decodeS c f = .readInput f.mode f.bit20 f.immediate f.source
  five        : f.secondary = 5 → 5 ∉ c.secondary.codes →
    decodeS c f = .invalidSecondary5 f.mode f.bit20 f.immediate f.source
  sixOrSeven  : f.secondary = 6 ∨ f.secondary = 7 → f.secondary ∉ c.secondary.codes →
    decodeS c f = .invalidSecondary6to7 f.secondary f.mode f.bit20 f.immediate f.source
  other       : f.secondary ≠ 5 → f.secondary ≠ 6 → f.secondary ≠ 7 → f.secondary ∉ c.secondary.codes →
    decodeS c f = .invalidSecondary8to15 f.secondary f.mode f.bit20 f.immediate f.source
  invalid     : (decodeS c f).isInvalid = true ↔
    f.secondary ∉ c.secondary.codes ∨ (f.secondary = c.secondary.compareZero ∧ f.mode ∉ c.mode.codes)

theorem legal_codes {c : OpcodeTables} (hc : c.Legal) : (∀ p ∈ c.primary.codes, p ≠ 0) ∧
    c.primary.codes.Nodup ∧ c.secondary.codes.Nodup ∧ c.mode.codes.Nodup := by
  obtain ⟨hp, hs, hm⟩ := hc
  obtain ⟨hzero, hp⟩ := List.nodup_cons.1 hp
  exact ⟨fun p hmem h => hzero (h ▸ hmem), hp, hs, hm⟩

/-- Codes of their own: the cases before that of a code do not match it. -/
theorem primarySelects {t : PrimaryCodes} (h : t.codes.Nodup) (f : Fields) : PrimarySelects t f := by
  simp only [List.nodup_cons, List.mem_cons, List.not_mem_nil, not_or] at h
  constructor
  case invalid => unfold decodeD; split_ifs <;> simp_all [Instr.isInvalid]
  all_goals intros; unfold decodeD; split_ifs <;> simp_all

theorem modeSelects {t : ModeCodes} (h : t.codes.Nodup) (f : Fields) : ModeSelects t f := by
  simp only [List.nodup_cons, List.mem_cons, List.not_mem_nil, not_or] at h
  constructor
  case invalid => unfold decodeCompare; split_ifs <;> simp_all [Instr.isInvalid]
  all_goals intros; unfold decodeCompare; split_ifs <;> simp_all

theorem secondarySelects {c : OpcodeTables} (hs : c.secondary.codes.Nodup) (hm : c.mode.codes.Nodup) (f : Fields) :
    SecondarySelects c f := by
  have hmode := (modeSelects hm f).invalid
  simp only [List.nodup_cons, List.mem_cons, List.not_mem_nil, not_or] at hs
  constructor
  case invalid => unfold decodeS; split_ifs <;> simp_all [Instr.isInvalid]
  case sixOrSeven => rintro (h6 | h7) _ <;> unfold decodeS <;> simp_all
  all_goals intros; unfold decodeS; split_ifs <;> simp_all

/-! ## Decoding an encoded instruction -/

theorem decode_encodeD_of_selects {c : OpcodeTables} {p : BitVec 4} {i : Addr → Addr → Instr} (h0 : p ≠ 0)
    (h : ∀ f : Fields, f.primary = p → decodeD c.primary f = i f.operandA f.operandB) (a b : Addr) :
    decode c (encodeD p a b) = i a b := by
  rw [decode_encodeD c p a b h0]
  exact h _ rfl

theorem decode_encodeS_of_selects {c : OpcodeTables} {o : BitVec 4}
    {i : BitVec 3 → BitVec 1 → BitVec 6 → Addr → Instr}
    (h : ∀ f : Fields, f.secondary = o → decodeS c f = i f.mode f.bit20 f.immediate f.source)
    (m : BitVec 3) (t : BitVec 1) (im : BitVec 6) (src : Addr) : decode c (encodeS o m t im src) = i m t im src := by
  rw [decode_encodeS]
  exact h _ rfl

theorem decode_encodeCompare_of_selects {c : OpcodeTables} (hc : c.Legal) {m : BitVec 3}
    {i : BitVec 1 → BitVec 6 → Addr → Instr}
    (h : ∀ f : Fields, f.mode = m → decodeCompare c.mode f = i f.bit20 f.immediate f.source)
    (t : BitVec 1) (im : BitVec 6) (src : Addr) :
    decode c (encodeS c.secondary.compareZero m t im src) = i t im src := by
  obtain ⟨-, hs, hm⟩ := hc
  rw [decode_encodeS, (secondarySelects hs hm _).compareZero rfl]
  exact h _ rfl

/-- Settles O7: the code that the encoder writes is the one that selects the instruction's case of the decoder. -/
theorem decodeOfEncodeIsTheInstruction : Obligations.DecodeOfEncodeIsTheInstruction := by
  unfold Obligations.DecodeOfEncodeIsTheInstruction
  intro c i hc hi
  obtain ⟨hcode, hp, hs, hm⟩ := legal_codes hc
  have selD := primarySelects hp
  have selS := secondarySelects hs hm
  have selM := modeSelects hm
  cases i with
  | add a b => exact decode_encodeD_of_selects (hcode _ (by simp)) (fun f => (selD f).add) a b
  | sub a b => exact decode_encodeD_of_selects (hcode _ (by simp)) (fun f => (selD f).sub) a b
  | mult a b => exact decode_encodeD_of_selects (hcode _ (by simp)) (fun f => (selD f).mult) a b
  | div a b => exact decode_encodeD_of_selects (hcode _ (by simp)) (fun f => (selD f).div) a b
  | output p b => exact decode_encodeD_of_selects (hcode _ (by simp)) (fun f => (selD f).output) p b
  | select a b => exact decode_encodeD_of_selects (hcode _ (by simp)) (fun f => (selD f).select) a b
  | noop m t im src => exact decode_encodeS_of_selects (fun f => (selS f).noop) m t im src
  | compareZeroLt t im src => exact decode_encodeCompare_of_selects hc (fun f => (selM f).lt) t im src
  | compareZeroLe t im src => exact decode_encodeCompare_of_selects hc (fun f => (selM f).le) t im src
  | compareZeroEq t im src => exact decode_encodeCompare_of_selects hc (fun f => (selM f).eq) t im src
  | compareZeroGe t im src => exact decode_encodeCompare_of_selects hc (fun f => (selM f).ge) t im src
  | compareZeroGt t im src => exact decode_encodeCompare_of_selects hc (fun f => (selM f).gt) t im src
  | sqrt m t im src => exact decode_encodeS_of_selects (fun f => (selS f).sqrt) m t im src
  | copy m t im src => exact decode_encodeS_of_selects (fun f => (selS f).copy) m t im src
  | readInput m t im p => exact decode_encodeS_of_selects (fun f => (selS f).readInput) m t im p
  | invalidPrimary7 a b =>
    have h7 := of_decide_eq_true hi
    exact decode_encodeD_of_selects (by decide) (fun f hf => (selD f).seven hf h7) a b
  | invalidPrimary8to15 p a b =>
    obtain ⟨h0, h7, hnot⟩ := of_decide_eq_true hi
    refine decode_encodeD_of_selects (i := .invalidPrimary8to15 p) h0 ?_ a b
    rintro f rfl
    exact (selD f).other h7 hnot
  | invalidSecondary5 m t im src =>
    have h5 := of_decide_eq_true hi
    exact decode_encodeS_of_selects (fun f hf => (selS f).five hf h5) m t im src
  | invalidSecondary6to7 o m t im src =>
    obtain ⟨h67, hnot⟩ := of_decide_eq_true hi
    refine decode_encodeS_of_selects (i := .invalidSecondary6to7 o) ?_ m t im src
    rintro f rfl
    exact (selS f).sixOrSeven h67 hnot
  | invalidSecondary8to15 o m t im src =>
    obtain ⟨h5, h6, h7, hnot⟩ := of_decide_eq_true hi
    refine decode_encodeS_of_selects (i := .invalidSecondary8to15 o) ?_ m t im src
    rintro f rfl
    exact (selS f).other h5 h6 h7 hnot
  | invalidCompareMode5 t im src =>
    have h5 := of_decide_eq_true hi
    exact decode_encodeCompare_of_selects hc (fun f hf => (selM f).five hf h5) t im src
  | invalidCompareMode6to7 m t im src =>
    obtain ⟨h5, hnot⟩ := of_decide_eq_true hi
    refine decode_encodeCompare_of_selects hc (i := .invalidCompareMode6to7 m) ?_ t im src
    rintro f rfl
    exact (selM f).other h5 hnot

/-! ## The fields of a word tell its operation (30_encoding.md R77) -/

theorem primary_eq_iff {c : OpcodeTables} {w : Word} {p : BitVec 4} {i : Addr → Addr → Instr} (h0 : p ≠ 0)
    (hsel : (fields w).primary = p → decodeD c.primary (fields w) = i (fields w).operandA (fields w).operandB)
    (henc : ∀ a b, encode c (i a b) = encodeD p a b) : (fields w).primary = p ↔ ∃ a b, decode c w = i a b := by
  constructor
  · intro h
    exact ⟨_, _, (decode_dForm c (h ▸ h0)).trans (hsel h)⟩
  · rintro ⟨a, b, h⟩
    rw [← encode_decode c w, h, henc, fields_encodeD_primary]

theorem secondary_eq_iff {c : OpcodeTables} {w : Word} {o : BitVec 4}
    {i : BitVec 3 → BitVec 1 → BitVec 6 → Addr → Instr}
    (hsel : (fields w).secondary = o →
      decodeS c (fields w) = i (fields w).mode (fields w).bit20 (fields w).immediate (fields w).source)
    (henc : ∀ m t im src, encode c (i m t im src) = encodeS o m t im src) :
    (fields w).primary = 0 ∧ (fields w).secondary = o ↔ ∃ m t im src, decode c w = i m t im src := by
  constructor
  · rintro ⟨h0, h⟩
    exact ⟨_, _, _, _, (decode_sForm c h0).trans (hsel h)⟩
  · rintro ⟨m, t, im, src, h⟩
    obtain ⟨h0, ho, -⟩ := fields_encodeS o m t im src
    rw [← encode_decode c w, h, henc]
    exact ⟨h0, ho⟩

theorem mode_eq_iff {c : OpcodeTables} (hc : c.Legal) {w : Word} {m : BitVec 3} {i : BitVec 1 → BitVec 6 → Addr → Instr}
    (hsel : (fields w).mode = m →
      decodeCompare c.mode (fields w) = i (fields w).bit20 (fields w).immediate (fields w).source)
    (henc : ∀ t im src, encode c (i t im src) = encodeS c.secondary.compareZero m t im src) :
    (fields w).primary = 0 ∧ (fields w).secondary = c.secondary.compareZero ∧ (fields w).mode = m ↔
      ∃ t im src, decode c w = i t im src := by
  obtain ⟨-, hs, hm⟩ := hc
  constructor
  · rintro ⟨h0, hz, h⟩
    exact ⟨_, _, _, (decode_sForm c h0).trans (((secondarySelects hs hm _).compareZero hz).trans (hsel h))⟩
  · rintro ⟨t, im, src, h⟩
    obtain ⟨h0, ho, hmode, -⟩ := fields_encodeS c.secondary.compareZero m t im src
    rw [← encode_decode c w, h, henc]
    exact ⟨h0, ho, hmode⟩

theorem decode_isInvalid_iff {c : OpcodeTables} (hc : c.Legal) (w : Word) : (decode c w).isInvalid = true ↔
    ((fields w).primary ≠ 0 ∧ (fields w).primary ∉ c.primary.codes) ∨
    ((fields w).primary = 0 ∧ (fields w).secondary ∉ c.secondary.codes) ∨
    ((fields w).primary = 0 ∧ (fields w).secondary = c.secondary.compareZero ∧ (fields w).mode ∉ c.mode.codes) := by
  obtain ⟨-, hp, hs, hm⟩ := legal_codes hc
  by_cases h0 : (fields w).primary = 0
  · rw [decode_sForm c h0, (secondarySelects hs hm _).invalid]
    simp only [h0, ne_eq, not_true_eq_false, false_and, false_or, true_and]
  · rw [decode_dForm c h0, (primarySelects hp _).invalid]
    simp only [h0, ne_eq, not_false_eq_true, true_and, false_and, or_false]

/-- Settles O6: a code selects its case alone, and the word is the encoding of what it decodes to, so its fields hold
the code of its operation. -/
theorem opcodeTablesSelectTheOperations : Obligations.OpcodeTablesSelectTheOperations := by
  unfold Obligations.OpcodeTablesSelectTheOperations
  refine ⟨rfl, reference_legal, rfl, rfl, rfl, fun c w hc => ?_⟩
  obtain ⟨hcode, hp, hs, hm⟩ := legal_codes hc
  have selD := primarySelects hp (fields w)
  have selS := secondarySelects hs hm (fields w)
  have selM := modeSelects hm (fields w)
  exact ⟨primary_eq_iff (hcode _ (by simp)) selD.add fun _ _ => rfl,
    primary_eq_iff (hcode _ (by simp)) selD.sub fun _ _ => rfl,
    primary_eq_iff (hcode _ (by simp)) selD.mult fun _ _ => rfl,
    primary_eq_iff (hcode _ (by simp)) selD.div fun _ _ => rfl,
    primary_eq_iff (hcode _ (by simp)) selD.output fun _ _ => rfl,
    primary_eq_iff (hcode _ (by simp)) selD.select fun _ _ => rfl,
    secondary_eq_iff selS.noop fun _ _ _ _ => rfl,
    mode_eq_iff hc selM.lt fun _ _ _ => rfl, mode_eq_iff hc selM.le fun _ _ _ => rfl,
    mode_eq_iff hc selM.eq fun _ _ _ => rfl, mode_eq_iff hc selM.ge fun _ _ _ => rfl,
    mode_eq_iff hc selM.gt fun _ _ _ => rfl,
    secondary_eq_iff selS.sqrt fun _ _ _ _ => rfl, secondary_eq_iff selS.copy fun _ _ _ _ => rfl,
    secondary_eq_iff selS.readInput fun _ _ _ _ => rfl, decode_isInvalid_iff hc w⟩

/-! ## The undefined codes of the reference tables as numbers (30_encoding.md R81 to R83) -/

theorem reference_primary_undefined : ∀ p : BitVec 4,
    (p ≠ 0 ∧ p ∉ OpcodeTables.reference.primary.codes) ↔ 7 ≤ p.toNat := by decide

theorem reference_secondary_undefined : ∀ o : BitVec 4,
    o ∉ OpcodeTables.reference.secondary.codes ↔ 5 ≤ o.toNat := by decide

theorem reference_secondary_compareZero : ∀ o : BitVec 4,
    o = OpcodeTables.reference.secondary.compareZero ↔ o.toNat = 1 := by decide

theorem reference_mode_undefined : ∀ m : BitVec 3,
    m ∉ OpcodeTables.reference.mode.codes ↔ 5 ≤ m.toNat := by decide

theorem primary_eq_zero_iff (w : Word) : (fields w).primary = 0 ↔ w.toNat / 2 ^ 28 = 0 := by
  rw [← fields_primary_toNat, ← BitVec.toNat_inj]
  rfl

/-- Settles O5: the words that hold an undefined code, with the reference tables' undefined codes as numbers. -/
theorem exactlyTheUndefinedWordsAreInvalid : Obligations.ExactlyTheUndefinedWordsAreInvalid := by
  unfold Obligations.ExactlyTheUndefinedWordsAreInvalid
  intro w
  rw [decode_isInvalid_iff reference_legal, reference_primary_undefined, reference_secondary_undefined,
    reference_secondary_compareZero, reference_mode_undefined, primary_eq_zero_iff, fields_primary_toNat,
    fields_secondary_toNat, fields_mode_toNat]

/-! ## Every word, and the ignored bits (30_encoding.md R74, R80, R85) -/

/-- Settles O3: the sums of the encoders, and the word back from the fields of its form. -/
theorem encodersGiveEveryWordBack : Obligations.EncodersGiveEveryWordBack := by
  unfold Obligations.EncodersGiveEveryWordBack
  exact ⟨encodeD_toNat, encodeS_toNat, fun w => ⟨fun _ => encodeD_fields w, encodeS_fields w⟩⟩

/-- Settles O8: `wellFormed_decode` and `encode_decode` hold of every tables, legal or not. -/
theorem everyWordIsTheEncodingOfItsDecoding : Obligations.EveryWordIsTheEncodingOfItsDecoding := by
  unfold Obligations.EveryWordIsTheEncodingOfItsDecoding
  exact fun c w => ⟨wellFormed_decode c w, encode_decode c w⟩

/-- operand_a is the S-form fields above source, put together (30_encoding.md R71, R72, R74). -/
theorem operandA_toNat_eq_sum (w : Word) : (fields w).operandA.toNat = (fields w).secondary.toNat * 1024 +
    (fields w).mode.toNat * 128 + (fields w).bit20.toNat * 64 + (fields w).immediate.toNat := by
  rw [fields_operandA_toNat, fields_secondary_toNat, fields_mode_toNat, fields_bit20_toNat, fields_immediate_toNat]
  omega

theorem append_sForm_toNat (o : BitVec 4) (m : BitVec 3) (t : BitVec 1) (im : BitVec 6) :
    (o ++ m ++ t ++ im).toNat = o.toNat * 1024 + m.toNat * 128 + t.toNat * 64 + im.toNat := by
  rw [BitVec.toNat_append, BitVec.toNat_append, BitVec.toNat_append, ← Nat.shiftLeft_add_eq_or_of_lt im.isLt,
    ← Nat.shiftLeft_add_eq_or_of_lt t.isLt, ← Nat.shiftLeft_add_eq_or_of_lt m.isLt]
  simp only [Nat.shiftLeft_eq]
  omega

/-- Settles O2: source and operand_b are one slice, and operand_a is the sum of the fields it overlays. -/
theorem fieldSetsOverlayTheSameBits : Obligations.FieldSetsOverlayTheSameBits := by
  unfold Obligations.FieldSetsOverlayTheSameBits
  refine fun w => ⟨rfl, ?_, operandA_toNat_eq_sum w⟩
  exact BitVec.eq_of_toNat_eq ((operandA_toNat_eq_sum w).trans (append_sForm_toNat _ _ _ _).symm)

/-- Settles O1: the decoder evaluated on one word of each row. -/
theorem tableWordsDecodeToTheirInstructions : Obligations.TableWordsDecodeToTheirInstructions := by
  unfold Obligations.TableWordsDecodeToTheirInstructions
  decide

/-- Settles O9: the words of each operation are those the statements on the operations give, and no meaning has an
ignored field among its arguments. -/
theorem ignoredBitsAreKeptAndDoNotMatter : Obligations.IgnoredBitsAreKeptAndDoNotMatter := by
  unfold Obligations.IgnoredBitsAreKeptAndDoNotMatter
  obtain ⟨hnoop, -⟩ := Machine.noopOnlyAdvances
  obtain ⟨hsqrt, -⟩ := Machine.sqrtWritesTheRootToItsOwnSlot
  obtain ⟨hcopy, -⟩ := Machine.copyMovesASlotToItsOwnSlot
  obtain ⟨hread, -⟩ := Machine.readInputMovesAPortToItsOwnSlot
  obtain ⟨hlt, hle, heq, hge, hgt, -⟩ := Machine.compareZeroWritesTheStatusFlag
  exact ⟨hnoop, hsqrt, hcopy, hread, hlt, hle, heq, hge, hgt,
    fun _ _ _ _ _ _ _ _ _ => ⟨rfl, rfl, rfl, rfl, rfl, rfl, rfl, rfl, rfl⟩⟩

end Sys2Proof
end

section
/-! The binary64 primitives (spec/40_dform_arithmetic.md R101 to R105; spec/42_sform.md R133): correct rounding, when a
result is a NaN, the signs of results, infinities, the comparisons with zero, and the obligations. -/

namespace Sys2Proof.F64

/-! ## The functions on finite operands are one rounding (40_dform_arithmetic.md R101, R105) -/

theorem signedUnits_eq_mul (v : F64) : v.signedUnits = (if v.sign then -1 else 1) * (v.units : Int) := by
  unfold signedUnits
  cases v.sign <;> simp

theorem pack_roundBits_zero (neg : Bool) (den : Nat) : pack neg (roundBits 0 den) = zero neg := by
  rw [roundBits_zero, zero]

theorem fadd_roundsTo {a b : F64} (ha : a.isFinite = true) (hb : b.isFinite = true) :
    ∃ r, fadd a b = .value r ∧ RoundsTo r (a.signedUnits + b.signedUnits) 1 := by
  rw [fadd_of_isFinite ha hb]
  by_cases h0 : a.signedUnits + b.signedUnits = 0
  · rw [if_pos h0, h0, ← pack_roundBits_zero (a.sign && b.sign) 1]
    exact ⟨_, rfl, pack_roundBits_roundsTo _ 0 (by omega) (fun _ => le_rfl) (fun _ => le_rfl)⟩
  · rw [if_neg h0]
    exact ⟨_, rfl, pack_roundBits_roundsTo _ _ (by omega) (fun h => (of_decide_eq_true h).le)
      (fun h => not_lt.1 (of_decide_eq_false h))⟩

theorem fsub_roundsTo {a b : F64} (ha : a.isFinite = true) (hb : b.isFinite = true) :
    ∃ r, fsub a b = .value r ∧ RoundsTo r (a.signedUnits - b.signedUnits) 1 := by
  rw [sub_eq_add_neg, ← negate_signedUnits]
  exact fadd_roundsTo ha (by rwa [negate_isFinite])

/-- A magnitude under the exclusive or of two signs, against the exact result with the two signs as factors. -/
theorem pack_xor_roundsTo (p q : Bool) (m : Nat) {den : Nat} (hd : 0 < den) :
    RoundsTo (pack (p != q) (roundBits m den)) ((if p then -1 else 1) * (if q then -1 else 1) * (m : Int)) den := by
  have hm : ((if p then -1 else 1) * (if q then -1 else 1) * (m : Int)).natAbs = m := by
    cases p <;> cases q <;> simp
  conv => enter [1, 2, 1]; rw [← hm]
  exact pack_roundBits_roundsTo _ _ hd (by cases p <;> cases q <;> simp) (by cases p <;> cases q <;> simp)

theorem fmul_of_isFinite {a b : F64} (ha : a.isFinite = true) (hb : b.isFinite = true) :
    fmul a b = .value (pack (a.sign != b.sign) (roundBits (a.units * b.units) unitsPerOne)) := by
  simp [fmul, isFinite_not_isNaN ha, isFinite_not_isNaN hb, isFinite_not_isInf ha, isFinite_not_isInf hb, unitsPerOne]

theorem fmul_roundsTo {a b : F64} (ha : a.isFinite = true) (hb : b.isFinite = true) :
    ∃ r, fmul a b = .value r ∧ RoundsTo r (a.signedUnits * b.signedUnits) unitsPerOne := by
  have hnum : a.signedUnits * b.signedUnits =
      (if a.sign then -1 else 1) * (if b.sign then -1 else 1) * ((a.units * b.units : Nat) : Int) := by
    rw [signedUnits_eq_mul, signedUnits_eq_mul b, Nat.cast_mul]
    ring
  rw [hnum]
  exact ⟨_, fmul_of_isFinite ha hb, pack_xor_roundsTo _ _ _ unitsPerOne_pos⟩

theorem fdiv_of_isFinite {a b : F64} (ha : a.isFinite = true) (hb : b.isFinite = true) (hz : b.isZero = false) :
    fdiv a b = .value (pack (a.sign != b.sign) (roundBits (a.units * unitsPerOne) b.units)) := by
  simp [fdiv, isFinite_not_isNaN ha, isFinite_not_isNaN hb, isFinite_not_isInf ha, isFinite_not_isInf hb, hz,
    shiftLeft_unitsPerOne]

theorem fdiv_roundsTo {a b : F64} (ha : a.isFinite = true) (hb : b.isFinite = true) (hz : b.isZero = false) :
    ∃ r, fdiv a b = .value r ∧
      RoundsTo r ((if b.sign then -1 else 1) * (a.signedUnits * unitsPerOne)) b.units := by
  have hnum : (if b.sign then -1 else 1) * (a.signedUnits * unitsPerOne) =
      (if a.sign then -1 else 1) * (if b.sign then -1 else 1) * ((a.units * unitsPerOne : Nat) : Int) := by
    rw [signedUnits_eq_mul, Nat.cast_mul]
    ring
  rw [hnum]
  exact ⟨_, fdiv_of_isFinite ha hb hz, pack_xor_roundsTo _ _ _ (Nat.pos_of_ne_zero (units_ne_zero hz))⟩

theorem fsqrt_rootRoundsTo {v : F64} (hf : v.isFinite = true) (hs : v.sign = false) (hz : v.isZero = false) :
    ∃ r, fsqrt v = .value r ∧ RootRoundsTo r (v.units * unitsPerOne) := by
  have hlt := roundBits_lt v.sqrtNum 2
  have hunits := units_pack false hlt
  have hparity : (pack false (roundBits v.sqrtNum 2)).fraction % 2 = roundBits v.sqrtNum 2 % 2 := by
    rw [pack_fraction false hlt, Nat.mod_mod_of_dvd _ (by decide)]
  refine ⟨_, fsqrt_value hf hs hz, pack_isFinite _ (roundBits_sqrtNum_lt v), pack_sign _ hlt, fun c _ h => ?_,
    fun c _ h => ?_⟩ <;> rw [hunits] at h ⊢ <;> rw [hparity, ← shiftLeft_unitsPerOne]
  · exact (sqrt_nearest hz c).1 h
  · exact (sqrt_nearest hz c).2 h

/-! ## NaN results (40_dform_arithmetic.md R102) -/

theorem fadd_eq_nan_iff (a b : F64) : fadd a b = .nan ↔
    a.isNaN = true ∨ b.isNaN = true ∨ (a.isInf = true ∧ b.isInf = true ∧ a.sign ≠ b.sign) := by
  unfold fadd
  dsimp only
  split_ifs with hnan
  · simp only [Bool.or_eq_true] at hnan
    tauto
  all_goals simp_all

theorem fsub_eq_nan_iff (a b : F64) : fsub a b = .nan ↔
    a.isNaN = true ∨ b.isNaN = true ∨ (a.isInf = true ∧ b.isInf = true ∧ a.sign = b.sign) := by
  rw [fsub, fadd_eq_nan_iff, negate_isNaN, negate_isInf, negate_sign]
  simp

theorem not_isZero_of_isInf {v : F64} (h : v.isInf = true) : v.isZero = false := (isInf_classes h).2

theorem fmul_eq_nan_iff (a b : F64) : fmul a b = .nan ↔
    a.isNaN = true ∨ b.isNaN = true ∨ (a.isInf = true ∧ b.isZero = true) ∨ (a.isZero = true ∧ b.isInf = true) := by
  have ha := not_isZero_of_isInf (v := a)
  have hb := not_isZero_of_isInf (v := b)
  unfold fmul
  split_ifs with hnan hinf hzero
  · simp only [Bool.or_eq_true] at hnan
    tauto
  · simp only [Bool.or_eq_true] at hinf hzero
    rcases hinf with hinf | hinf <;> rcases hzero with hzero | hzero <;> simp_all
  all_goals simp_all

theorem fdiv_eq_nan_iff (a b : F64) : fdiv a b = .nan ↔
    a.isNaN = true ∨ b.isNaN = true ∨ (a.isInf = true ∧ b.isInf = true) ∨ (a.isZero = true ∧ b.isZero = true) := by
  have ha := not_isZero_of_isInf (v := a)
  have hb := not_isZero_of_isInf (v := b)
  unfold fdiv
  split_ifs with hnan
  · simp only [Bool.or_eq_true] at hnan
    tauto
  all_goals simp_all

theorem fsqrt_eq_nan_iff (v : F64) : fsqrt v = .nan ↔ v.isNaN = true ∨ v.flt0 = true := by
  unfold fsqrt flt0
  dsimp only
  split_ifs <;> simp_all

theorem nanPattern_toNat (s : BitVec 1) (f : Fin 4503599627370495) :
    (nanPattern s f).toNat = s.toNat * 9223372036854775808 + 2047 * 4503599627370496 + (f.val + 1) := by
  have hfraction : (BitVec.ofNat 52 (f.val + 1)).toNat = f.val + 1 := by simp; omega
  rw [nanPattern, BitVec.toNat_append, BitVec.toNat_append, hfraction, ← Nat.shiftLeft_add_eq_or_of_lt (by omega),
    ← Nat.shiftLeft_add_eq_or_of_lt (by decide)]
  simp only [Nat.shiftLeft_eq, BitVec.toNat_ofNat]
  omega

/-- A NaN is drawn by its own sign and by its own fraction less 1. -/
theorem isNaN_iff_nanPattern (v : F64) : v.isNaN = true ↔ ∃ sign frac, nanPattern sign frac = v := by
  constructor
  · intro h
    simp only [isNaN, Bool.and_eq_true, beq_iff_eq, bne_iff_ne] at h
    obtain ⟨hexp, hfrac⟩ := h
    have hlt := v.fraction_lt
    refine ⟨BitVec.ofBool v.sign, ⟨v.fraction - 1, by omega⟩, BitVec.eq_of_toNat_eq ?_⟩
    have hsign : (BitVec.ofBool v.sign).toNat = if v.sign then 1 else 0 := by cases v.sign <;> rfl
    rw [nanPattern_toNat, toNat_split v, hexp, hsign]
    split_ifs <;> simp only [] <;> omega
  · rintro ⟨s, f, rfl⟩
    exact nanPattern_isNaN s f

/-! ## Signs of products and quotients (40_dform_arithmetic.md R103) -/

theorem pack_roundBits_sign (neg : Bool) (num den : Nat) : (pack neg (roundBits num den)).sign = neg :=
  pack_sign neg (roundBits_lt num den)

theorem fmul_sign {a b r : F64} (h : fmul a b = .value r) : r.sign = (a.sign != b.sign) := by
  unfold fmul at h
  split_ifs at h <;> obtain rfl := FpResult.value.inj h
  · exact inf_sign _
  · exact pack_roundBits_sign _ _ _

theorem fdiv_sign {a b r : F64} (h : fdiv a b = .value r) : r.sign = (a.sign != b.sign) := by
  unfold fdiv at h
  split_ifs at h <;> obtain rfl := FpResult.value.inj h
  · exact inf_sign _
  · exact zero_sign _
  · exact inf_sign _
  · exact pack_roundBits_sign _ _ _

theorem fadd_exact_zero {a b : F64} (ha : a.isFinite = true) (hb : b.isFinite = true) (hs : a.sign ≠ b.sign)
    (h0 : a.signedUnits + b.signedUnits = 0) : fadd a b = .value posZero := by
  have hand : (a.sign && b.sign) = false := by
    cases ha' : a.sign <;> cases hb' : b.sign <;> simp_all
  rw [fadd_of_isFinite ha hb, if_pos h0, hand]
  rfl

/-! ## Infinities (40_dform_arithmetic.md R104) -/

theorem fadd_of_isInf_of_isFinite {a b : F64} (ha : a.isInf = true) (hb : b.isFinite = true) :
    fadd a b = .value a := by
  simp [fadd, isInf_classes ha, isFinite_not_isNaN hb, isFinite_not_isInf hb, ha]

theorem fadd_of_isInf_of_sign_eq {a b : F64} (ha : a.isInf = true) (hb : b.isInf = true) (hs : a.sign = b.sign) :
    fadd a b = .value a := by
  simp [fadd, isInf_classes ha, isInf_classes hb, ha, hs]

theorem fmul_of_isInf {a b : F64} (ha : a.isInf = true) (hn : b.isNaN = false) (hz : b.isZero = false) :
    fmul a b = .value (inf (a.sign != b.sign)) := by
  simp [fmul, isInf_classes ha, ha, hn, hz]

theorem fdiv_of_isInf_of_isFinite {a b : F64} (ha : a.isInf = true) (hb : b.isFinite = true) :
    fdiv a b = .value (inf (a.sign != b.sign)) := by
  simp [fdiv, isInf_classes ha, isFinite_not_isNaN hb, isFinite_not_isInf hb, ha]

theorem fdiv_of_isFinite_of_isInf {a b : F64} (ha : a.isFinite = true) (hb : b.isInf = true) :
    fdiv a b = .value (zero (a.sign != b.sign)) := by
  simp [fdiv, isInf_classes hb, isFinite_not_isNaN ha, isFinite_not_isInf ha, hb]

/-! ## Comparison with zero (42_sform.md R133) -/

theorem isZero_iff (v : F64) : v.isZero = true ↔ v = posZero ∨ v = negZero := by
  constructor
  · intro h
    simp only [isZero, Bool.and_eq_true, beq_iff_eq] at h
    obtain ⟨hexp, hfrac⟩ := h
    cases hs : v.sign with
    | false => exact .inl (eq_of_fields (hs.trans (by decide)) (hexp.trans (by decide)) (hfrac.trans (by decide)))
    | true => exact .inr (eq_of_fields (hs.trans (by decide)) (hexp.trans (by decide)) (hfrac.trans (by decide)))
  · rintro (rfl | rfl) <;> decide

theorem not_isZero {v : F64} (hp : v ≠ posZero) (hn : v ≠ negZero) : v.isZero = false :=
  Bool.eq_false_iff.2 fun h => ((isZero_iff v).1 h).elim hp hn

theorem comparisons_of_isNaN {v : F64} (h : v.isNaN = true) :
    v.flt0 = false ∧ v.fle0 = false ∧ v.feq0 = false ∧ v.fge0 = false ∧ v.fgt0 = false := by
  have hz : v.isZero = false := Bool.eq_false_iff.2 fun hz => by simp [isZero_classes hz] at h
  simp [flt0, fle0, feq0, fge0, fgt0, h, hz]

theorem comparisons_of_isZero {v : F64} (h : v.isZero = true) :
    v.flt0 = false ∧ v.fle0 = true ∧ v.feq0 = true ∧ v.fge0 = true ∧ v.fgt0 = false := by
  simp [flt0, fle0, feq0, fge0, fgt0, isZero_classes h, h]

theorem comparisons_of_sign {v : F64} (hn : v.isNaN = false) (hz : v.isZero = false) :
    v.flt0 = v.sign ∧ v.fle0 = v.sign ∧ v.feq0 = false ∧ v.fge0 = !v.sign ∧ v.fgt0 = !v.sign := by
  simp [flt0, fle0, feq0, fge0, fgt0, hn, hz]

/-! ## The obligations -/

/-- Settles O10: each function packs one rounded magnitude, of the exact result's sign; the root through the square of
its midpoints. -/
theorem arithmeticIsCorrectlyRounded : Obligations.ArithmeticIsCorrectlyRounded := by
  unfold Obligations.ArithmeticIsCorrectlyRounded
  exact ⟨fun a b ha hb => ⟨fadd_roundsTo ha hb, fsub_roundsTo ha hb, fmul_roundsTo ha hb, fdiv_roundsTo ha hb⟩,
    fun v => fsqrt_rootRoundsTo⟩

/-- Settles O11: the branches of each function that answer a NaN, and each NaN as the pattern of its sign and
fraction. -/
theorem naNResultsAreExactlyTheInvalidOnes : Obligations.NaNResultsAreExactlyTheInvalidOnes := by
  unfold Obligations.NaNResultsAreExactlyTheInvalidOnes
  exact ⟨fadd_eq_nan_iff, fsub_eq_nan_iff, fmul_eq_nan_iff, fdiv_eq_nan_iff, fsqrt_eq_nan_iff, isNaN_iff_nanPattern⟩

/-- Settles O12: an exact zero sum has the conjunction of the signs, and every value of a product or a quotient is
packed under the exclusive or. -/
theorem signsOfZeroResults : Obligations.SignsOfZeroResults := by
  unfold Obligations.SignsOfZeroResults
  exact ⟨fun a b => fadd_exact_zero, fun x => fsub_self_of_isFinite, by decide +kernel, by decide +kernel,
    by decide +kernel, by decide +kernel, by decide +kernel, by decide +kernel, by decide +kernel,
    fun a b r => fmul_sign, fun a b r => fdiv_sign, fsqrt_of_isZero (by decide), fsqrt_of_isZero (by decide),
    fsqrt_posInf, fun a b _ _ => rfl⟩

/-- Settles O13: an infinity decides its branch of each function; the two overflows by evaluation. -/
theorem arithmeticOnInfinities : Obligations.ArithmeticOnInfinities := by
  unfold Obligations.ArithmeticOnInfinities
  refine ⟨?finite, ?infinite, fun a b s h => Machine.exec_div_of_feq0 h, by decide +kernel, by decide +kernel⟩
  case finite =>
    intro a b ha hb
    refine ⟨fadd_of_isInf_of_isFinite ha hb, fadd_of_isFinite_of_isInf hb ha,
      fadd_of_isInf_of_isFinite ha (by rwa [negate_isFinite]), fadd_of_isFinite_of_isInf hb (by rwa [negate_isInf]),
      fun hz => ?_, ?_⟩
    · have hmul := fmul_of_isInf ha (isFinite_not_isNaN hb) hz
      exact ⟨hmul, (fmul_comm b a).trans hmul, fdiv_of_isInf_of_isFinite ha hb⟩
    · rw [fdiv_of_isFinite_of_isInf hb ha, bne_comm]
  case infinite =>
    intro a b ha hb
    obtain ⟨hn, hz⟩ := isInf_classes hb
    exact ⟨fmul_of_isInf ha hn hz, fadd_of_isInf_of_sign_eq ha hb⟩

/-- Settles O14: a NaN is no zero, the two zeros are the patterns with exponent and fraction zero, and of every other
pattern the sign alone decides. -/
theorem comparisonWithZeroTruthTable : Obligations.ComparisonWithZeroTruthTable := by
  unfold Obligations.ComparisonWithZeroTruthTable
  refine ⟨isZero_iff, fun v => ⟨comparisons_of_isNaN, fun h => comparisons_of_isZero ((isZero_iff v).2 h), ?_, ?_⟩⟩ <;>
    intro hnan hp hn hs <;>
    simpa only [hs, Bool.not_true, Bool.not_false] using comparisons_of_sign hnan (not_isZero hp hn)

end Sys2Proof.F64
end

section
/-! Every step keeps the invariant (spec/10_state.md section 3; spec/60_exceptions.md R180): what a step can be, each
update of the state under the invariant, and the obligations on all steps. -/

namespace Sys2Proof.Machine

/-! ## What a step can be (43_sequencer_and_host.md R150; 20_memory.md R66) -/

/-- A step that answers a next state executes a line, idles, or does the oldest operation of the host. -/
theorem step_next_cases {s t : State} (h : step s = .next t) :
    (∃ w, s.fetch = some w ∧ exec (decode s.cfg.opcodes w) s = .next t) ∨
      (s.fetch = none ∧ s.pending = [] ∧ t = s) ∨
      ∃ op rest, s.fetch = none ∧ s.pending = op :: rest ∧ hostOp op { s with pending := rest } = .next t := by
  cases hf : s.fetch with
  | some w => exact .inl ⟨w, rfl, (step_of_fetch hf).symm.trans h⟩
  | none =>
    cases hp : s.pending with
    | nil =>
      rw [step_idle hf hp] at h
      exact .inr (.inl ⟨rfl, rfl, (Host.Outcome.next.inj h).symm⟩)
    | cons op rest => exact .inr (.inr ⟨op, rest, rfl, rfl, (step_host hf hp).symm.trans h⟩)

/-! ## Each update keeps the invariant -/

namespace State.Inv

variable {s : State}

theorem advance (hs : s.Inv) (hpc : s.pc < s.n) : s.advance.Inv := { hs with pc_le := hpc }

theorem withSlot (hs : s.Inv) (hpc : s.pc < s.n) (v : F64) (d : Nat) :
    { s with mem := s.mem.write s.pc v, draws := d }.Inv :=
  { hs with mem_wf := Memory.wf_write hs.mem_wf _ v, mem_below := Memory.below_write hs.mem_below hpc v }

theorem withOutPort (hs : s.Inv) (p : Addr) (v : F64) : { s with outPort := s.outPort.write (addrIndex p) v }.Inv :=
  { hs with
    outPort_wf := Memory.wf_write hs.outPort_wf _ v
    outPort_below := Memory.below_write hs.outPort_below (addrIndex_lt p) v }

theorem withInPort (hs : s.Inv) {p : Nat} (hp : p < Config.portCount) (v : F64) :
    { s with inPort := s.inPort.write p v }.Inv :=
  { hs with
    inPort_wf := Memory.wf_write hs.inPort_wf _ v
    inPort_below := Memory.below_write hs.inPort_below hp v }

theorem withStatus (hs : s.Inv) (b : Bool) : { s with status := b }.Inv := { hs with }

theorem withPending (hs : s.Inv) (ops : List HostOp) : { s with pending := ops }.Inv := { hs with }

theorem withPcZero (hs : s.Inv) : { s with pc := 0 }.Inv := { hs with pc_le := Nat.zero_le _ }

theorem withDestroyed (hs : s.Inv) : { s with phase := .destroyed }.Inv :=
  { hs with created_empty := fun h => Phase.noConfusion h }

theorem reply (hs : s.Inv) (r : Reply) : (s.reply r).Inv := { hs with }

theorem create (hs : s.Inv) : s.create.Inv where
  tables_legal := hs.tables_legal
  lines_fit := Nat.zero_le _
  pc_le := Nat.zero_le _
  mem_wf := Memory.wf_nil
  mem_below := List.forall_mem_nil _
  inPort_wf := Memory.wf_nil
  inPort_below := List.forall_mem_nil _
  outPort_wf := Memory.wf_nil
  outPort_below := List.forall_mem_nil _
  created_empty := fun _ => rfl
  all_defined := fun _ => List.forall_mem_nil _

/-- Before load the memory is empty, since `N` is 0 (10_state.md R31). -/
theorem mem_below_zero (hs : s.Inv) (hc : s.phase = .created) : s.mem.below 0 := by
  have hn : s.n = 0 := congrArg List.length (hs.created_empty hc)
  exact hn ▸ hs.mem_below

theorem install (hs : s.Inv) (hc : s.phase = .created) {source : ByteSource} {image : List Byte}
    (h : loadCheck s.cfg source = .ok image) : (s.install image).Inv := by
  obtain ⟨-, hfits, hdefined⟩ := loadCheck_ok h
  have hn : (s.install image).n = recordCount image := imageWords_length _ _
  exact { hs with
    lines_fit := hn.trans_le hfits
    pc_le := hn.ge
    mem_wf := Memory.wf_writeFrom hs.mem_wf _ _
    mem_below := Memory.below_writeFrom (Memory.below_mono (hs.mem_below_zero hc) (Nat.zero_le _)) _ _ (by simp [hn])
    created_empty := fun hp => Phase.noConfusion hp
    all_defined := hdefined }

theorem load (hs : s.Inv) (hc : s.phase = .created) (source : ByteSource) : (s.load source).Inv := by
  obtain ⟨e, -, h⟩ | ⟨image, hok, h⟩ := s.load_cases source
  · exact h ▸ hs.reply _
  · exact h ▸ (hs.install hc hok).reply _

end State.Inv

/-! ## An instruction and a host operation keep the invariant -/

theorem exec_keeps_inv {i : Instr} {s t : State} (hs : s.Inv) (hpc : s.pc < s.n) (h : exec i s = .next t) : t.Inv := by
  obtain ⟨v, d, -, rfl⟩ | ⟨p, b, -, rfl⟩ | ⟨b, -, rfl⟩ | rfl := exec_next_cases h
  · exact (hs.withSlot hpc v d).advance hpc
  · exact (hs.withOutPort p _).advance hpc
  · exact (hs.withStatus b).advance hpc
  · exact hs.advance hpc

theorem hostOp_keeps_inv {op : HostOp} {s t : State} (hs : s.Inv) (h : hostOp op s = .next t) : t.Inv := by
  obtain ⟨-, ⟨-, rfl⟩ | ⟨source, -, hc, rfl⟩ | ⟨source, -, -, -, rfl⟩ | ⟨-, -, -, rfl⟩ | ⟨-, -, -, rfl⟩ |
    ⟨-, -, rfl⟩ | ⟨port, v, -, -, hport, rfl⟩ | ⟨port, -, -, -, rfl⟩ | ⟨-, -, rfl⟩⟩ := hostOp_next h
  · exact hs.create
  · exact hs.load hc source
  · exact hs.create.load rfl source
  · exact hs
  · exact hs.reply _
  · exact hs.withPcZero
  · exact hs.withInPort hport v
  · exact hs.reply _
  · exact hs.withDestroyed

/-! ## A step keeps the configuration -/

@[simp] theorem State.load_cfg (s : State) (source : ByteSource) : (s.load source).cfg = s.cfg := by
  obtain ⟨e, -, h⟩ | ⟨image, -, h⟩ := s.load_cases source <;> rw [h] <;> rfl

theorem hostOp_keeps_cfg {op : HostOp} {s t : State} (h : hostOp op s = .next t) : t.cfg = s.cfg := by
  obtain ⟨-, ⟨-, rfl⟩ | ⟨source, -, -, rfl⟩ | ⟨source, -, -, -, rfl⟩ | ⟨-, -, -, rfl⟩ | ⟨-, -, -, rfl⟩ |
    ⟨-, -, rfl⟩ | ⟨_, _, -, -, -, rfl⟩ | ⟨_, -, -, -, rfl⟩ | ⟨-, -, rfl⟩⟩ := hostOp_next h <;> simp

/-! ## The obligations -/

/-- Settles O36: the line executed stands below `N`, so its slot is within the bound; a load begins in phase created,
where the memory is empty. -/
theorem everyStepKeepsTheInvariant : Obligations.EveryStepKeepsTheInvariant := by
  unfold Obligations.EveryStepKeepsTheInvariant
  intro s t hs h
  obtain ⟨w, hf, hexec⟩ | ⟨-, -, rfl⟩ | ⟨op, rest, -, -, hop⟩ := step_next_cases h
  · exact exec_keeps_inv hs (State.fetch_pc_lt hf) hexec
  · exact hs
  · exact hostOp_keeps_inv (hs.withPending rest) hop

/-- Settles O37: a line of a state that meets the invariant completes, and no host operation faults. -/
theorem noStepFaults : Obligations.NoStepFaults := by
  unfold Obligations.NoStepFaults
  intro s hs
  have hline : ∀ w, s.fetch = some w → ∃ t, step s = .next t := fun w hf => by
    rw [step_of_fetch hf]
    exact hs.exec_fetched_completes hf
  constructor
  · intro r h
    cases hf : s.fetch with
    | some w =>
      obtain ⟨t, ht⟩ := hline w hf
      cases ht.symm.trans h
    | none =>
      cases hp : s.pending with
      | nil => cases (step_idle hf hp).symm.trans h
      | cons op rest => exact hostOp_ne_fault op _ r ((step_host hf hp).symm.trans h)
  · intro hcycle r h
    obtain ⟨w, hf⟩ := Option.isSome_iff_exists.1 hcycle
    obtain ⟨t, ht⟩ := hline w hf
    cases ht.symm.trans h

/-- Settles O38: neither an instruction nor a host operation has the parameters among what it writes. -/
theorem noStepChangesTheConfiguration : Obligations.NoStepChangesTheConfiguration := by
  unfold Obligations.NoStepChangesTheConfiguration
  intro s t h
  obtain ⟨w, -, hexec⟩ | ⟨-, -, rfl⟩ | ⟨op, rest, -, -, hop⟩ := step_next_cases h
  · exact (exec_kept hexec).cfg
  · rfl
  · exact (hostOp_keeps_cfg hop :)

/-- Settles O35: the parts of the invariant evaluated on the reset state. -/
theorem resetMeetsTheInvariant : Obligations.ResetMeetsTheInvariant where
  tables_legal := reference_legal
  lines_fit := Nat.zero_le _
  pc_le := Nat.zero_le _
  mem_wf := Memory.wf_nil
  mem_below := List.forall_mem_nil _
  inPort_wf := Memory.wf_nil
  inPort_below := List.forall_mem_nil _
  outPort_wf := Memory.wf_nil
  outPort_below := List.forall_mem_nil _
  created_empty := fun _ => rfl
  all_defined := fun _ => List.forall_mem_nil _

/-- Settles O34: the reset state has empty arrays, which read `+0.0` everywhere. -/
theorem resetIsTheStateAfterCreate : Obligations.ResetIsTheStateAfterCreate := by
  unfold Obligations.ResetIsTheStateAfterCreate
  exact ⟨rfl, rfl, rfl, Memory.read_nil, Memory.read_nil, Memory.read_nil, rfl, rfl⟩

/-- Settles O33: a field is below `2^14`, the least MEM_CAPACITY and PORT_COUNT; a line executed stands below `N`. -/
theorem everyFormedAddressExists : Obligations.EveryFormedAddressExists := by
  unfold Obligations.EveryFormedAddressExists
  exact ⟨fun c a => ⟨Nat.lt_add_right c.extraSlots (addrIndex_lt a), addrIndex_lt a⟩,
    fun s w hs hf => hs.pc_lt_memCapacity hf⟩

/-- Settles O27: the step of a fetched line is exec of its decoding, and decoding the encoding gives the instruction
back. -/
theorem stepRunsTheDecodedInstruction : Obligations.StepRunsTheDecodedInstruction := by
  unfold Obligations.StepRunsTheDecodedInstruction
  have hstep : ∀ (s : State) (w : Word), s.phase = .ready → s.imem[s.pc]? = some w →
      step s = exec (decode s.cfg.opcodes w) s := fun s w hready hw =>
    step_of_fetch (State.fetch_eq_some.2 ⟨hready, hw⟩)
  refine ⟨hstep, fun s i hc hi hready hw => ?_⟩
  rw [hstep s _ hready hw, decodeOfEncodeIsTheInstruction _ i hc hi]

end Sys2Proof.Machine
end

section
/-! What an instruction writes and what it reads (spec/43_sequencer_and_host.md R154; spec/10_state.md R24, R27 to R29):
the frame of every instruction, its one effect as a value, and the obligations. -/

namespace Sys2Proof.Machine

/-! ## The frame of an instruction (43_sequencer_and_host.md R154) -/

/-- The port that OUTPUT names is the one output port that can read otherwise after an instruction. -/
theorem exec_keeps_outPort {i : Instr} {s t : State} {p : Nat} (ho : s.outPort.wf) (h : exec i s = .next t)
    (hp : writesPort i ≠ some p) : t.outPort.read p = s.outPort.read p := by
  obtain ⟨_, _, -, rfl⟩ | ⟨port, b, rfl, rfl⟩ | ⟨_, -, rfl⟩ | rfl := exec_next_cases h
  · rfl
  · exact writePort_keeps_port ho hp _
  · rfl
  · rfl

/-- Settles O29: `exec_next_cases` has one write in each of its cases, and names the instructions that make it. -/
theorem instructionsWriteOnlyWhatTheirRowSays : Obligations.InstructionsWriteOnlyWhatTheirRowSays := by
  unfold Obligations.InstructionsWriteOnlyWhatTheirRowSays
  intro i s t hm ho h
  exact ⟨exec_kept h, fun hi => exec_keeps_status hi h,
    fun a ha => exec_keeps_slot hm h fun heq => ha.resolve_right (not_not_intro heq),
    fun p => exec_keeps_outPort ho h⟩

/-! ## The effect of an instruction as a value (43_sequencer_and_host.md R154) -/

/-- What an instruction does, with the values it has read. -/
inductive Effect where
  | result (r : FpResult)
  | slot (v : F64)
  | port (p : Addr) (v : F64)
  | flag (b : Bool)
  | advance
  | invalid

/-- The effect of an instruction in a state: all that it reads of the state's contents is read here. -/
def effect : Instr → State → Effect
  | .add a b, s => .result (F64.fadd (s.slotOperand a) (s.slotOperand b))
  | .sub a b, s => .result (F64.fsub (s.slotOperand a) (s.slotOperand b))
  | .mult a b, s => .result (F64.fmul (s.slotOperand a) (s.slotOperand b))
  | .div a b, s => if (s.slotOperand b).feq0 then .advance else .result (F64.fdiv (s.slotOperand a) (s.slotOperand b))
  | .output p b, s => .port p (s.slotOperand b)
  | .select a b, s => .slot (if s.status then s.slotOperand a else s.slotOperand b)
  | .noop _ _ _ _, _ => .advance
  | .compareZeroLt _ _ src, s => .flag (s.slotOperand src).flt0
  | .compareZeroLe _ _ src, s => .flag (s.slotOperand src).fle0
  | .compareZeroEq _ _ src, s => .flag (s.slotOperand src).feq0
  | .compareZeroGe _ _ src, s => .flag (s.slotOperand src).fge0
  | .compareZeroGt _ _ src, s => .flag (s.slotOperand src).fgt0
  | .sqrt _ _ _ src, s => .result (F64.fsqrt (s.slotOperand src))
  | .copy _ _ _ src, s => .slot (s.slotOperand src)
  | .readInput _ _ _ p, s => .slot (s.portOperand p)
  | .invalidPrimary7 _ _, _ | .invalidPrimary8to15 _ _ _, _ => .invalid
  | .invalidSecondary5 _ _ _ _, _ | .invalidSecondary6to7 _ _ _ _ _, _ | .invalidSecondary8to15 _ _ _ _ _, _ => .invalid
  | .invalidCompareMode5 _ _ _, _ | .invalidCompareMode6to7 _ _ _ _, _ => .invalid

/-- The effect done. -/
def Effect.apply (s : State) : Effect → Host.Outcome State Fault Refusal
  | .result r => s.writeResult r
  | .slot v => s.writeSlot v
  | .port p v => .next (s.writePort p v)
  | .flag b => .next (s.setStatus b)
  | .advance => .next s.advance
  | .invalid => s.invalidLine

/-- The effect is a write of the status flag. -/
def Effect.isFlag : Effect → Bool
  | .flag _ => true
  | .result _ | .slot _ | .port _ _ | .advance | .invalid => false

theorem exec_eq_effect (i : Instr) (s : State) : exec i s = (effect i s).apply s := by
  cases i with
  | div a b =>
    simp only [exec, execDiv, effect]
    split_ifs <;> rfl
  | _ => rfl

theorem effect_isFlag (i : Instr) (s : State) : (effect i s).isFlag = writesStatus i := by
  cases i with
  | div a b =>
    simp only [effect]
    split_ifs <;> rfl
  | _ => rfl

/-! ## An effect and the parts of the state that it does not read -/

/-- `g` replaces a part of the state that the write of an own slot neither reads nor changes. -/
structure SparesSlotWrites (g : State → State) : Prop where
  pc      : ∀ s, (g s).pc = s.pc
  cfg     : ∀ s, (g s).cfg = s.cfg
  draws   : ∀ s, (g s).draws = s.draws
  draw    : ∀ s, g s.draw = (g s).draw
  advance : ∀ s, g s.advance = (g s).advance
  slot    : ∀ s v, g { s with mem := s.mem.write s.pc v } = { g s with mem := (g s).mem.write (g s).pc v }

namespace SparesSlotWrites

variable {g : State → State} {s t : State}

theorem writeSlot (hg : SparesSlotWrites g) {v : F64} (h : s.writeSlot v = .next t) :
    (g s).writeSlot v = .next (g t) := by
  obtain ⟨hpc, rfl⟩ := State.writeSlot_next h
  rw [State.writeSlot_of_lt (by rwa [hg.pc, hg.cfg]), hg.advance, hg.slot]

theorem writeResult (hg : SparesSlotWrites g) {r : FpResult} (h : s.writeResult r = .next t) :
    (g s).writeResult r = .next (g t) := by
  cases r with
  | value v => exact hg.writeSlot h
  | nan =>
    have hnan : (g s).freeNaN = s.freeNaN := by rw [State.freeNaN, State.freeNaN, hg.draws]
    rw [State.writeResult, hnan, ← hg.draw]
    exact hg.writeSlot h

theorem invalidLine (hg : SparesSlotWrites g) (h : s.invalidLine = .next t) : (g s).invalidLine = .next (g t) := by
  rw [State.invalidLine, hg.cfg]
  rw [State.invalidLine] at h
  cases hp : s.cfg.invalidPolicy <;> rw [hp] at h <;> cases h
  rw [hg.advance]

/-- An effect commutes with such a `g`, where the writes of a port and of the flag do. -/
theorem apply (hg : SparesSlotWrites g) {e : Effect}
    (hport : ∀ p v, e = .port p v → g (s.writePort p v) = (g s).writePort p v)
    (hflag : ∀ b, e = .flag b → g (s.setStatus b) = (g s).setStatus b)
    (h : e.apply s = .next t) : e.apply (g s) = .next (g t) := by
  cases e with
  | result r => exact hg.writeResult h
  | slot v => exact hg.writeSlot h
  | port p v => cases h; exact congrArg _ (hport p v rfl).symm
  | flag b => cases h; exact congrArg _ (hflag b rfl).symm
  | advance => cases h; exact congrArg _ (hg.advance s).symm
  | invalid => exact hg.invalidLine h

end SparesSlotWrites

theorem sparesSlotWrites_status (b : Bool) : SparesSlotWrites fun s => { s with status := b } :=
  ⟨fun _ => rfl, fun _ => rfl, fun _ => rfl, fun _ => rfl, fun _ => rfl, fun _ _ => rfl⟩

theorem sparesSlotWrites_outPort (o : Memory) : SparesSlotWrites fun s => { s with outPort := o } :=
  ⟨fun _ => rfl, fun _ => rfl, fun _ => rfl, fun _ => rfl, fun _ => rfl, fun _ _ => rfl⟩

theorem sparesSlotWrites_pending (ops : List HostOp) : SparesSlotWrites fun s => { s with pending := ops } :=
  ⟨fun _ => rfl, fun _ => rfl, fun _ => rfl, fun _ => rfl, fun _ => rfl, fun _ _ => rfl⟩

theorem effect_withStatus {i : Instr} (hi : readsStatus i = false) (s : State) (b : Bool) :
    effect i { s with status := b } = effect i s := by
  cases i with
  | select a b => cases hi
  | _ => rfl

theorem effect_withOutPort (i : Instr) (s : State) (o : Memory) : effect i { s with outPort := o } = effect i s := by
  cases i <;> rfl

theorem effect_withPending (i : Instr) (s : State) (ops : List HostOp) :
    effect i { s with pending := ops } = effect i s := by
  cases i <;> rfl

theorem exec_withPending {i : Instr} {s t : State} (ops : List HostOp) (h : exec i s = .next t) :
    exec i { s with pending := ops } = .next { t with pending := ops } := by
  rw [exec_eq_effect] at h ⊢
  rw [effect_withPending]
  exact (sparesSlotWrites_pending ops).apply (fun _ _ _ => rfl) (fun _ _ => rfl) h

/-! ## The obligations -/

/-- Settles O30: the effect of another instruction is read without the flag, and but for the write of the flag it
commutes with a replacement of the flag. -/
theorem onlySelectReadsTheStatusFlag : Obligations.OnlySelectReadsTheStatusFlag := by
  unfold Obligations.OnlySelectReadsTheStatusFlag
  intro i s t b hi h
  rw [exec_eq_effect] at h ⊢
  rw [effect_withStatus hi, ← effect_isFlag i s]
  cases he : effect i s with
  | flag c => rw [he] at h; cases h; rfl
  | _ =>
    rw [he] at h
    exact (sparesSlotWrites_status b).apply (fun _ _ _ => rfl) (fun _ hf => Effect.noConfusion hf) h

/-- Settles O31: an effect is read without the output ports, and but for the write of a port it commutes with a
replacement of the output ports. -/
theorem noInstructionReadsAnOutputPort : Obligations.NoInstructionReadsAnOutputPort := by
  unfold Obligations.NoInstructionReadsAnOutputPort
  intro i s t o h
  rw [exec_eq_effect] at h ⊢
  rw [effect_withOutPort]
  cases he : effect i s with
  | port p v => rw [he] at h; cases h; exact ⟨o.write (addrIndex p) v, rfl⟩
  | _ =>
    rw [he] at h
    exact ⟨o, (sparesSlotWrites_outPort o).apply (fun _ _ hp => Effect.noConfusion hp) (fun _ _ => rfl) h⟩

/-- Settles O52: a line is to be executed, which is the test on which a host operation is refused, and no effect reads
the queue. -/
theorem hostHasNoMoveDuringACycle : Obligations.HostHasNoMoveDuringACycle := by
  unfold Obligations.HostHasNoMoveDuringACycle
  refine fun s hcycle => ⟨fun op => if_pos hcycle, fun ops t h => ?_⟩
  obtain ⟨w, hf⟩ := Option.isSome_iff_exists.1 hcycle
  have hf' : { s with pending := ops }.fetch = some w := hf
  rw [step_of_fetch hf] at h
  rw [step_of_fetch hf']
  exact exec_withPending ops h

end Sys2Proof.Machine
end

section
/-! The host operations (spec/43_sequencer_and_host.md R160 to R171) and load (spec/20_memory.md R51 to R60): what each
answers between cycles, what it leaves of the ports, and the obligations. -/

namespace Sys2Proof.Machine

/-! ## Between cycles an operation is that of its phase -/

theorem hostOp_create {s : State} (h : s.fetch = none) : hostOp .create s = .next s.create :=
  if_neg (by simp [h])

theorem hostOp_load {s : State} (h : s.fetch = none) (source : ByteSource) :
    hostOp (.load source) s = hostLoad source s := if_neg (by simp [h])

theorem hostOp_runCycle {s : State} (h : s.fetch = none) : hostOp .runCycle s = hostRunCycle s :=
  if_neg (by simp [h])

theorem hostOp_writeInput {s : State} (h : s.fetch = none) (port : Nat) (v : F64) :
    hostOp (.writeInput port v) s = hostWriteInput port v s := if_neg (by simp [h])

theorem hostOp_readOutput {s : State} (h : s.fetch = none) (port : Nat) :
    hostOp (.readOutput port) s = hostReadOutput port s := if_neg (by simp [h])

theorem State.fetch_of_created {s : State} (h : s.phase = .created) : s.fetch = none :=
  State.fetch_none_of_phase_ne_ready (by simp [h])

theorem hostOp_load_of_created {s : State} (h : s.phase = .created) (source : ByteSource) :
    hostOp (.load source) s = .next (s.load source) := by
  rw [hostOp_load (State.fetch_of_created h), hostLoad, h]

theorem hostOp_runCycle_of_ready {s : State} (h : s.phase = .ready) (hf : s.fetch = none) :
    hostOp .runCycle s = .next { s with pc := 0 } := by
  rw [hostOp_runCycle hf, hostRunCycle, h]

theorem hostRunCycle_noop {s : State} (h : s.phase = .created) (hrun : s.cfg.runWhenCreated = .noop) :
    hostRunCycle s = .next s := by
  rw [hostRunCycle, h, hrun]

theorem hostRunCycle_error {s : State} (h : s.phase = .created) (hrun : s.cfg.runWhenCreated = .error) :
    hostRunCycle s = .next (s.reply .runError) := by
  rw [hostRunCycle, h, hrun]

theorem hostWriteInput_of_not_destroyed {s : State} (h : s.phase ≠ .destroyed) (port : Nat) (v : F64) :
    hostWriteInput port v s = if port < Config.portCount then .next { s with inPort := s.inPort.write port v }
      else .refused .portOutOfRange := by
  cases hp : s.phase with
  | created => simp only [hostWriteInput, hp]
  | ready => simp only [hostWriteInput, hp]
  | destroyed => exact absurd hp h

theorem hostReadOutput_of_not_destroyed {s : State} (h : s.phase ≠ .destroyed) (port : Nat) :
    hostReadOutput port s = if port < Config.portCount then .next (s.reply (.output (s.outPort.read port)))
      else .refused .portOutOfRange := by
  cases hp : s.phase with
  | created => simp only [hostReadOutput, hp]
  | ready => simp only [hostReadOutput, hp]
  | destroyed => exact absurd hp h

/-- Settles O41: between cycles the step does the oldest operation, and run_cycle in phase ready sets pc to 0. -/
theorem cycleStartsFromTheStateLeft : Obligations.CycleStartsFromTheStateLeft := by
  unfold Obligations.CycleStartsFromTheStateLeft
  intro s rest hready hpc hpending
  have hfetch : s.fetch = none := State.fetch_none_of_le hpc.ge
  rw [step_host hfetch hpending]
  exact hostOp_runCycle_of_ready (s := { s with pending := rest }) hready hfetch

/-- Settles O42: create answers an empty machine, whose flag is false under STATUS_RESET = false. -/
theorem createYieldsTheResetState : Obligations.CreateYieldsTheResetState := by
  unfold Obligations.CreateYieldsTheResetState
  refine fun s hfetch => ⟨s.create, hostOp_create hfetch, rfl, rfl, Memory.read_nil, Memory.read_nil, Memory.read_nil,
    rfl, fun hreset => ?_⟩
  rw [State.create_status, State.statusAtCreate, hreset]

/-- Settles O48: the two values of RUN_WHEN_CREATED are the two branches of run_cycle in phase created. -/
theorem runCycleWithoutAProgramDoesNothing : Obligations.RunCycleWithoutAProgramDoesNothing := by
  unfold Obligations.RunCycleWithoutAProgramDoesNothing
  intro s hcreated
  have hop := hostOp_runCycle (State.fetch_of_created hcreated)
  exact ⟨fun hrun => hop.trans (hostRunCycle_noop hcreated hrun),
    fun hrun => hop.trans (hostRunCycle_error hcreated hrun)⟩

/-- Settles O49: the write of one port, admitted below PORT_COUNT. -/
theorem writeInputWritesOneInputPort : Obligations.WriteInputWritesOneInputPort := by
  unfold Obligations.WriteInputWritesOneInputPort
  intro s port v hphase hfetch hwf
  rw [hostOp_writeInput hfetch, hostWriteInput_of_not_destroyed hphase]
  refine ⟨fun hlt => ?_, fun hge => if_neg (not_lt.2 hge)⟩
  exact ⟨{ s with inPort := s.inPort.write port v }, if_pos hlt, Memory.read_write_same hwf port v,
    fun p hp => Memory.read_write_other hwf hp v, rfl⟩

/-- Settles O50: the reply of the port's bits, admitted below PORT_COUNT. -/
theorem readOutputReturnsTheOutputPort : Obligations.ReadOutputReturnsTheOutputPort := by
  unfold Obligations.ReadOutputReturnsTheOutputPort
  intro s port hphase hfetch
  rw [hostOp_readOutput hfetch, hostReadOutput_of_not_destroyed hphase]
  exact ⟨fun hlt => if_pos hlt, fun hge => if_neg (not_lt.2 hge)⟩

/-- Settles O53: a step with no line fetched is the host's turn, by the queue. -/
theorem hostActsBetweenCyclesInOrder : Obligations.HostActsBetweenCyclesInOrder := by
  unfold Obligations.HostActsBetweenCyclesInOrder
  exact fun s hfetch => ⟨step_idle hfetch, fun op rest => step_host hfetch⟩

/-- Settles O47: destroy and create leave the state that create alone gives, since create sets the phase. -/
theorem secondLoadIsRefused : Obligations.SecondLoadIsRefused := by
  unfold Obligations.SecondLoadIsRefused
  intro s source hready hfetch
  rw [hostOp_load hfetch, hostLoad, hready]
  refine ⟨fun hpolicy => by rw [hpolicy], fun hpolicy => ?_⟩
  refine ⟨{ s with phase := .destroyed }, ?_, s.create, hostOp_create rfl, ?_⟩
  · rw [hostOp_destroy hfetch, hostDestroy_of_not_destroyed (by simp [hready])]
  · rw [hpolicy, hostOp_load_of_created s.create_phase]

/-! ## The checks of load and what they reject (60_exceptions.md R183 to R186) -/

theorem mem_imageWords {e : Endian} {image : List Byte} {w : Word} :
    w ∈ imageWords e image ↔ ∃ k < recordCount image, recordWord e image k = w := by
  simp [imageWords]

theorem loadCheck_of_too_long {c : Config} {image : List Byte} (h : c.memCapacity < recordCount image) :
    loadCheck c (.bytes image) = .error .tooLong := if_pos h

theorem loadCheck_of_invalid {c : Config} {image : List Byte} {k : Nat} (hfits : recordCount image ≤ c.memCapacity)
    (hpolicy : c.invalidPolicy = .refuse) (hk : k < recordCount image)
    (hinvalid : (decode c.opcodes (recordWord c.imageEndian image k)).isInvalid = true) :
    loadCheck c (.bytes image) = .error .invalidEncoding := by
  have hholds : holdsInvalid c.opcodes (imageWords c.imageEndian image) = true :=
    List.any_eq_true.2 ⟨_, mem_imageWords.2 ⟨k, hk, rfl⟩, hinvalid⟩
  rw [loadCheck, if_neg (not_lt.2 hfits), if_pos ⟨hpolicy, hholds⟩]

theorem State.load_of_error {s : State} {source : ByteSource} {e : LoadError} (h : loadCheck s.cfg source = .error e) :
    s.load source = s.reply (.loadError e) := by
  rw [State.load, h]

theorem State.load_of_ok {s : State} {source : ByteSource} {image : List Byte}
    (h : loadCheck s.cfg source = .ok image) : s.load source = (s.install image).reply .loadOk := by
  rw [State.load, h]

theorem exec_of_isInvalid {i : Instr} (hi : i.isInvalid = true) (s : State) : exec i s = s.invalidLine := by
  rw [exec_eq_effect]
  cases i with
  | invalidPrimary7 | invalidPrimary8to15 | invalidSecondary5 | invalidSecondary6to7 | invalidSecondary8to15
  | invalidCompareMode5 | invalidCompareMode6to7 => rfl
  | _ => cases hi

/-- Settles O26: an INVALID line is one branch on INVALID_POLICY, load rejects an image that holds one, and the
invariant has none in the program. -/
theorem invalidLinesAreRefusedOrExecuteAsNoop : Obligations.InvalidLinesAreRefusedOrExecuteAsNoop := by
  unfold Obligations.InvalidLinesAreRefusedOrExecuteAsNoop
  refine ⟨fun i s hi hp => ?refuse, fun i s m t im src hi hp => ?noop,
    fun s image k hp hfits hk hi => State.load_of_error (loadCheck_of_invalid hfits hp hk hi),
    fun s w hs hp hf => hs.all_defined hp w (State.fetch_mem hf)⟩
  case refuse => rw [exec_of_isInvalid hi, State.invalidLine, hp]
  case noop =>
    have hexec : exec i s = .next s.advance := by rw [exec_of_isInvalid hi, State.invalidLine, hp]
    exact ⟨completesWith_of_advance hexec, hexec.trans (exec_noop m t im src s).symm⟩

/-- Settles O43: the image passes the checks, and is installed over an empty memory. -/
theorem loadInstallsTheImage : Obligations.LoadInstallsTheImage := by
  unfold Obligations.LoadInstallsTheImage
  intro s image hs hcreated hfits hdefined
  have hcheck : loadCheck s.cfg (.bytes image) = .ok image := loadCheck_of_fits hfits fun hp w hw => by
    obtain ⟨k, hk, rfl⟩ := mem_imageWords.1 hw
    exact hdefined hp k hk
  have hn : ((s.install image).reply .loadOk).n = recordCount image := imageWords_length _ _
  refine ⟨(s.install image).reply .loadOk, ?_, rfl, hn, fun k hk => ?_, fun a ha => ?_, rfl, rfl, rfl, rfl⟩
  · rw [hostOp_load_of_created hcreated, State.load_of_ok hcheck]
  · rw [hn] at hk
    exact ⟨imageWords_getElem? _ _ hk, (s.install_read hs.mem_wf image k).trans (if_pos hk)⟩
  · rw [hn] at ha
    rw [State.reply_mem, s.install_read hs.mem_wf, if_neg (not_lt.2 ha)]
    exact Memory.read_of_below (hs.mem_below_zero hcreated) (Nat.zero_le a)

/-- Settles O46: each check that fails answers its error alone, in the order of the checks. -/
theorem loadErrorsChangeNoState : Obligations.LoadErrorsChangeNoState := by
  unfold Obligations.LoadErrorsChangeNoState
  intro s hcreated
  simp only [hostOp_load_of_created hcreated]
  refine ⟨rfl, fun image hlong => ?tooLong, fun image k hfits hp hk hi => ?invalid, fun image hfits hp => ?noop⟩
  case tooLong => exact congrArg _ (State.load_of_error (loadCheck_of_too_long hlong))
  case invalid => exact congrArg _ (State.load_of_error (loadCheck_of_invalid hfits hp hk hi))
  case noop =>
    have hcheck := loadCheck_of_fits (c := s.cfg) hfits fun hrefuse => by simp [hp] at hrefuse
    exact ⟨_, rfl, by rw [State.load_of_ok hcheck]; rfl, by rw [State.load_of_ok hcheck]; rfl⟩

/-! ## The bytes of a record (20_memory.md R52, R54) -/

/-- The value of a byte of an image by its offset. -/
abbrev byteAt (image : List Byte) (o : Nat) : Nat := (image.getD o 0).toNat

theorem take_drop_eq_map {image : List Byte} {o n : Nat} (h : o + n ≤ image.length) :
    (image.drop o).take n = (List.range n).map fun k => image.getD (o + k) 0 := by
  refine List.ext_getElem (by simp; omega) fun k hk _ => ?_
  have hlt : o + k < image.length := by
    simp only [List.length_take, List.length_drop] at hk
    omega
  simp [List.getElem?_eq_getElem hlt]

theorem littleNat_lt (bytes : List Byte) : littleNat bytes < 256 ^ bytes.length := by
  induction bytes with
  | nil => simp [littleNat]
  | cons b rest ih =>
    rw [littleNat, List.length_cons, Nat.pow_succ]
    have := b.isLt
    omega

theorem endianNat_lt (e : Endian) (bytes : List Byte) : endianNat e bytes < 256 ^ bytes.length := by
  cases e with
  | little => exact littleNat_lt bytes
  | big => exact List.length_reverse (as := bytes) ▸ littleNat_lt bytes.reverse

theorem wordAt_toNat (e : Endian) {image : List Byte} {o : Nat} (h : o + 4 ≤ image.length) :
    (wordAt e image o).toNat = endianNat e ((List.range 4).map fun k => image.getD (o + k) 0) := by
  rw [wordAt, take_drop_eq_map h, BitVec.toNat_ofNat]
  exact Nat.mod_eq_of_lt ((endianNat_lt e _).trans_eq (by simp))

theorem doubleAt_toNat (e : Endian) {image : List Byte} {o : Nat} (h : o + 8 ≤ image.length) :
    (doubleAt e image o).toNat = endianNat e ((List.range 8).map fun k => image.getD (o + k) 0) := by
  rw [doubleAt, take_drop_eq_map h, BitVec.toNat_ofNat]
  exact Nat.mod_eq_of_lt ((endianNat_lt e _).trans_eq (by simp))

/-- The offsets of four and of eight bytes in a row, written out. -/
theorem map_range_four {α : Type} (f : Nat → α) : (List.range 4).map f = [f 0, f 1, f 2, f 3] := rfl

theorem map_range_eight {α : Type} (f : Nat → α) :
    (List.range 8).map f = [f 0, f 1, f 2, f 3, f 4, f 5, f 6, f 7] := rfl

theorem wordAt_little_toNat {image : List Byte} {o : Nat} (h : o + 4 ≤ image.length) :
    (wordAt .little image o).toNat = byteAt image o + 2 ^ 8 * byteAt image (o + 1) + 2 ^ 16 * byteAt image (o + 2) +
      2 ^ 24 * byteAt image (o + 3) := by
  rw [wordAt_toNat _ h, map_range_four]
  simp only [byteAt, endianNat, littleNat, Nat.add_zero]
  omega

theorem wordAt_big_toNat {image : List Byte} {o : Nat} (h : o + 4 ≤ image.length) :
    (wordAt .big image o).toNat = byteAt image (o + 3) + 2 ^ 8 * byteAt image (o + 2) + 2 ^ 16 * byteAt image (o + 1) +
      2 ^ 24 * byteAt image o := by
  rw [wordAt_toNat _ h, map_range_four]
  simp only [byteAt, endianNat, List.reverse_cons, List.reverse_nil, List.nil_append, List.cons_append, littleNat,
    Nat.add_zero]
  omega

theorem doubleAt_little_toNat {image : List Byte} {o : Nat} (h : o + 8 ≤ image.length) :
    (doubleAt .little image o).toNat = byteAt image o + 2 ^ 8 * byteAt image (o + 1) +
      2 ^ 16 * byteAt image (o + 2) + 2 ^ 24 * byteAt image (o + 3) + 2 ^ 32 * byteAt image (o + 4) +
      2 ^ 40 * byteAt image (o + 5) + 2 ^ 48 * byteAt image (o + 6) + 2 ^ 56 * byteAt image (o + 7) := by
  rw [doubleAt_toNat _ h, map_range_eight]
  simp only [byteAt, endianNat, littleNat, Nat.add_zero]
  omega

theorem doubleAt_big_toNat {image : List Byte} {o : Nat} (h : o + 8 ≤ image.length) :
    (doubleAt .big image o).toNat = byteAt image (o + 7) + 2 ^ 8 * byteAt image (o + 6) +
      2 ^ 16 * byteAt image (o + 5) + 2 ^ 24 * byteAt image (o + 4) + 2 ^ 32 * byteAt image (o + 3) +
      2 ^ 40 * byteAt image (o + 2) + 2 ^ 48 * byteAt image (o + 1) + 2 ^ 56 * byteAt image o := by
  rw [doubleAt_toNat _ h, map_range_eight]
  simp only [byteAt, endianNat, List.reverse_cons, List.reverse_nil, List.nil_append, List.cons_append, littleNat,
    Nat.add_zero]
  omega

theorem recordWord_eq_wordAt (e : Endian) (image : List Byte) (i : Nat) :
    recordWord e image i = wordAt e image (if i % 2 = 0 then 12 * i + 8 else 12 * i) :=
  (apply_ite (wordAt e image) _ _ _).symm

theorem recordConstant_eq_doubleAt (e : Endian) (image : List Byte) (i : Nat) :
    recordConstant e image i = doubleAt e image (if i % 2 = 0 then 12 * i else 12 * i + 4) :=
  (apply_ite (doubleAt e image) _ _ _).symm

/-- Settles O44: the parity chooses the offsets, and a field is the sum of its bytes in either order. -/
theorem recordFieldsAlternateByParity : Obligations.RecordFieldsAlternateByParity := by
  unfold Obligations.RecordFieldsAlternateByParity
  intro image i hlen wordOff constOff byte
  have hword : wordOff + 4 ≤ image.length := by simp only [wordOff]; split_ifs <;> omega
  have hconst : constOff + 8 ≤ image.length := by simp only [constOff]; split_ifs <;> omega
  simp only [recordWord_eq_wordAt, recordConstant_eq_doubleAt]
  exact ⟨wordAt_little_toNat hword, wordAt_big_toNat hword, doubleAt_little_toNat hconst, doubleAt_big_toNat hconst⟩

/-! ## The ports (10_state.md R27 to R29) -/

/-- The operation makes a fresh machine: create, or a load that begins with create. -/
def HostOp.startsAfresh (op : HostOp) (s : State) : Prop :=
  op = .create ∨ (∃ source, op = .load source) ∧ s.phase = .ready ∧ s.cfg.reloadPolicy = .fresh

@[simp] theorem State.load_inPort (s : State) (source : ByteSource) : (s.load source).inPort = s.inPort := by
  obtain ⟨e, -, h⟩ | ⟨image, -, h⟩ := s.load_cases source <;> rw [h] <;> rfl

@[simp] theorem State.load_outPort (s : State) (source : ByteSource) : (s.load source).outPort = s.outPort := by
  obtain ⟨e, -, h⟩ | ⟨image, -, h⟩ := s.load_cases source <;> rw [h] <;> rfl

/-- But for a fresh machine, no host operation touches an output port, and write_input alone an input port. -/
theorem hostOp_ports {op : HostOp} {s t : State} (h : hostOp op s = .next t) (hfresh : ¬ op.startsAfresh s) :
    t.outPort = s.outPort ∧
      (t.inPort = s.inPort ∨ ∃ port v, op = .writeInput port v ∧ t.inPort = s.inPort.write port v) := by
  obtain ⟨-, ⟨rfl, rfl⟩ | ⟨source, -, -, rfl⟩ | ⟨source, rfl, hready, hpolicy, rfl⟩ | ⟨-, -, -, rfl⟩ | ⟨-, -, -, rfl⟩ |
    ⟨-, -, rfl⟩ | ⟨port, v, rfl, -, -, rfl⟩ | ⟨_, -, -, -, rfl⟩ | ⟨-, -, rfl⟩⟩ := hostOp_next h
  · exact absurd (.inl rfl) hfresh
  · exact ⟨s.load_outPort source, .inl (s.load_inPort source)⟩
  · exact absurd (.inr ⟨⟨source, rfl⟩, hready, hpolicy⟩) hfresh
  · exact ⟨rfl, .inl rfl⟩
  · exact ⟨rfl, .inl rfl⟩
  · exact ⟨rfl, .inl rfl⟩
  · exact ⟨rfl, .inr ⟨port, v, rfl, rfl⟩⟩
  · exact ⟨rfl, .inl rfl⟩
  · exact ⟨rfl, .inl rfl⟩

/-- Settles O32: an instruction writes no input port and at most the output port that OUTPUT names; a host operation,
but for a fresh machine, at most the input port that write_input names. -/
theorem portsKeepTheirValuesUntilWritten : Obligations.PortsKeepTheirValuesUntilWritten := by
  unfold Obligations.PortsKeepTheirValuesUntilWritten
  refine ⟨fun p => ⟨Memory.read_nil p, Memory.read_nil p⟩, fun s t p h => ?_⟩
  obtain ⟨w, hf, hexec⟩ | ⟨-, -, rfl⟩ | ⟨op, rest, hf, hpending, hop⟩ := step_next_cases h
  · exact ⟨fun _ _ => by rw [(exec_kept hexec).inPort],
      fun ho hp => exec_keeps_outPort ho hexec fun hw => hp (.inr ⟨w, hf, hw⟩)⟩
  · exact ⟨fun _ _ => rfl, fun _ _ => rfl⟩
  · have hports : ¬ s.mayCreate → _ := fun hcreate =>
      hostOp_ports hop fun hfresh => hcreate ⟨hf, op, rest, hpending, hfresh⟩
    refine ⟨fun hwf hp => ?_, fun _ hp => ?_⟩
    · obtain ⟨-, hin | ⟨port, v, rfl, hin⟩⟩ := hports fun hcreate => hp (.inl hcreate)
      · rw [hin]
      · have hne : p ≠ port := fun heq => hp (.inr ⟨hf, v, rest, heq ▸ hpending⟩)
        rw [hin]
        exact Memory.read_write_other hwf hne v
    · obtain ⟨hout, -⟩ := hports fun hcreate => hp (.inl hcreate)
      rw [hout]

end Sys2Proof.Machine
end

section
/-! The cycle (spec/43_sequencer_and_host.md R150, R152; spec/20_memory.md R44, R45): one induction over the lines that
are left, and the obligations. -/

namespace Sys2Proof.Machine

/-- The words from line `pc` on begin with the one that is fetched. -/
theorem State.drop_pc_eq_cons {s : State} {w : Word} (h : s.fetch = some w) :
    s.imem.drop s.pc = w :: s.imem.drop (s.pc + 1) := by
  obtain ⟨hlt, hw⟩ := List.getElem?_eq_some_iff.1 (State.fetch_eq_some.1 h).2
  rw [List.drop_eq_getElem_cons hlt, hw]

theorem State.fetch_of_lt {s : State} (hready : s.phase = .ready) (hpc : s.pc < s.n) : ∃ w, s.fetch = some w :=
  ⟨s.imem[s.pc], State.fetch_eq_some.2 ⟨hready, List.getElem?_eq_getElem hpc⟩⟩

theorem execInOrder_cons_of_next {w : Word} {ws : List Word} {s t : State}
    (h : exec (decode s.cfg.opcodes w) s = .next t) : execInOrder (w :: ws) s = execInOrder ws t := by
  rw [execInOrder, h]

/-- The lines that are left run one a step, in their order, up to `pc = N`; what every executed line keeps holds at
the end. -/
theorem run_lines {P : State → Prop}
    (hP : ∀ (u v : State) (w : Word), u.Inv → u.fetch = some w → exec (decode u.cfg.opcodes w) u = .next v → P u → P v)
    (k : Nat) {s : State} (hs : s.Inv) (hready : s.phase = .ready) (hk : s.pc + k = s.n) (h0 : P s) :
    ∃ t, Host.Core.run Sys2Proof.core k s = .next t ∧ execInOrder (s.imem.drop s.pc) s = .next t ∧
      t.pc = t.n ∧ P t := by
  induction k generalizing s with
  | zero =>
    have hend : s.imem.drop s.pc = [] := List.drop_eq_nil_of_le hk.ge
    exact ⟨s, run_zero s, by rw [hend, execInOrder], hk, h0⟩
  | succ k ih =>
    obtain ⟨w, hf⟩ := State.fetch_of_lt hready (by omega)
    obtain ⟨u, hu⟩ := hs.exec_fetched_completes hf
    have hkept := exec_kept hu
    have hn : u.n = s.n := congrArg List.length hkept.imem
    obtain ⟨t, hrun, horder, hpc, ht⟩ := ih (exec_keeps_inv hs (State.fetch_pc_lt hf) hu)
      (hkept.phase.trans hready) (by rw [hkept.pc, hn]; omega) (hP s u w hs hf hu h0)
    refine ⟨t, (run_of_next ((step_of_fetch hf).trans hu)).trans hrun, ?_, hpc, ht⟩
    rw [State.drop_pc_eq_cons hf, execInOrder_cons_of_next hu, ← hkept.imem, ← hkept.pc, horder]

/-- A whole cycle: the step that begins it, then the lines from 0 on. -/
theorem run_cycle {P : State → Prop}
    (hP : ∀ (u v : State) (w : Word), u.Inv → u.fetch = some w → exec (decode u.cfg.opcodes w) u = .next v → P u → P v)
    {s : State} {rest : List HostOp} (hs : s.Inv) (hready : s.phase = .ready) (hpc : s.pc = s.n)
    (hpending : s.pending = .runCycle :: rest) (h0 : P { s with pc := 0, pending := rest }) :
    ∃ t, Host.Core.run Sys2Proof.core (s.n + 1) s = .next t ∧
      execInOrder s.imem { s with pc := 0, pending := rest } = .next t ∧ t.pc = t.n ∧ P t := by
  rw [run_of_next (cycleStartsFromTheStateLeft s rest hready hpc hpending)]
  exact run_lines hP s.n (hs.withPending rest).withPcZero hready (Nat.zero_add _) h0

/-! ## What the lines of a cycle keep -/

/-- The program, the phase and the queue are those of the state in which the cycle began. -/
structure ProgramKept (s u : State) : Prop where
  imem    : u.imem = s.imem
  phase   : u.phase = s.phase
  pending : u.pending = s.pending

theorem ProgramKept.exec {s u v : State} {i : Instr} (h : exec i u = .next v) (hu : ProgramKept s u) :
    ProgramKept s v := by
  have hkept := exec_kept h
  exact ⟨hkept.imem.trans hu.imem, hkept.phase.trans hu.phase, hkept.pending.trans hu.pending⟩

/-- The program, how it is decoded, and the content of slot `a` are those of the state in which the cycle began. -/
structure SlotKept (a : Nat) (s u : State) : Prop where
  cfg  : u.cfg = s.cfg
  imem : u.imem = s.imem
  slot : u.mem.read a = s.mem.read a

/-- The line whose own slot is `a` is the one line that could write it. -/
theorem SlotKept.exec {a : Nat} {s u v : State} {w : Word} (hm : u.mem.wf) (hf : u.fetch = some w)
    (hline : ∀ w, s.imem[a]? = some w → writesSlot (decode s.cfg.opcodes w) = false)
    (h : exec (decode u.cfg.opcodes w) u = .next v) (hu : SlotKept a s u) : SlotKept a s v := by
  have hkept := exec_kept h
  have hown : a = u.pc → writesSlot (decode u.cfg.opcodes w) = false := by
    rintro rfl
    rw [hu.cfg]
    exact hline w (hu.imem ▸ (State.fetch_eq_some.1 hf).2)
  exact ⟨hkept.cfg.trans hu.cfg, hkept.imem.trans hu.imem, (exec_keeps_slot hm h hown).trans hu.slot⟩

/-! ## The obligations -/

/-- Settles O39: the whole cycle, of which every line keeps the program, the phase and the queue. -/
theorem runCycleExecutesEveryLineOnceInOrder : Obligations.RunCycleExecutesEveryLineOnceInOrder := by
  unfold Obligations.RunCycleExecutesEveryLineOnceInOrder
  intro s rest hs hready hpc hpending
  obtain ⟨t, hrun, horder, hend, hkept⟩ := run_cycle (P := ProgramKept { s with pc := 0, pending := rest })
    (fun _ _ _ _ _ hexec hu => hu.exec hexec) hs hready hpc hpending ⟨rfl, rfl, rfl⟩
  refine ⟨t, hrun, horder, hend, hkept.imem, hkept.phase.trans hready, hkept.pending, fun hn => ?_⟩
  have hempty : s.imem = [] := List.eq_nil_of_length_eq_zero hn
  rw [hempty, execInOrder] at horder
  exact (Host.Outcome.next.inj horder).symm.trans (by rw [hempty])

/-- Settles O40: the whole cycle, of which every line keeps the slot. -/
theorem cycleKeepsTheSlotsOfNonWritingLines : Obligations.CycleKeepsTheSlotsOfNonWritingLines := by
  unfold Obligations.CycleKeepsTheSlotsOfNonWritingLines
  intro s t rest a hs hready hpc hpending hrun hline
  obtain ⟨t', hrun', -, -, hkept⟩ := run_cycle (P := SlotKept a s)
    (fun _ _ _ hu hf hexec hslot => hslot.exec hu.mem_wf hf hline hexec) hs hready hpc hpending ⟨rfl, rfl, rfl⟩
  have ht : t' = t := Host.Outcome.next.inj (hrun'.symm.trans hrun)
  exact ht ▸ hkept.slot

end Sys2Proof.Machine
end
